-- ==== Sys2Proof/Word.lean ====
section
/-! DEFINITION. The word of the machine (00_scope R6, R7) and the byte of a ROM image (30_encoding R70). -/

namespace Sys2Proof

/-- WORD_BITS = 16: every register, every memory word and every opcode (R6). -/
abbrev Word := BitVec 16

/-- One byte: the unit of the ROM image (R69) and of a stored memory cell (log 1). -/
abbrev Byte := BitVec 8

/-- The word a natural number reduces to, `mod 2^16` written out (R7, R100). -/
abbrev Word.ofNat (n : Nat) : Word := BitVec.ofNat 16 n

/-- `b[i] ++ b[i+1]`: the first byte is bits 15:8, the second bits 7:0 (R40, R70). -/
abbrev Word.ofBytes (high low : Byte) : Word := high ++ low

/-- Bits 15:8 of a word, the byte that comes first (R40). -/
abbrev Word.highByte (w : Word) : Byte := w.extractLsb' 8 8

/-- Bits 7:0 of a word, the byte that comes second (R40). -/
abbrev Word.lowByte (w : Word) : Byte := w.extractLsb' 0 8

end Sys2Proof
end

