-- ==== Sys2Proof/Config.lean ====
section
/-! DEFINITION. The implementation parameters of 00_scope R6: the values the spec fixes, and, as constants with no body,
the ones it leaves OPEN and the free value TopData. Nothing can be proved of an opaque constant but its type. -/

namespace Sys2Proof

/-- The two settings of the PC-change check (40_cycle R86). -/
inductive PcChangeDetect where
  /-- `changed <- (PC ≠ pc_before)`, the spec's default and the source's literal wording. -/
  | byValue
  /-- `changed <-` true exactly when a jump handler wrote PC. -/
  | byWrite
  deriving DecidableEq, Repr, Inhabited

/-- The codes of the three debug opcodes as a configuration table (30_encoding R65); its value is `debugCodes`. -/
structure DebugCodes where
  /-- The code of DBG_LGC. -/
  dbgLgc : Word
  /-- The code of DGB_MEM. -/
  dgbMem : Word
  /-- The code of DGB_INP. -/
  dgbInp : Word
  deriving DecidableEq, Repr

namespace Config

/-- MEM_WORDS (R6, R36). -/
def memWords : Nat := 65536

/-- 0xFFFF, the last valid word address (R36, R84). -/
def lastAddress : Nat := 65535

/-- ROM_LOAD_LIMIT (R6, R146). -/
def romLoadLimit : Nat := 4096

/-- JPZ_TAKEN_ON_EQUAL, OPEN (R6, R108; 92 D8): true when JPZ jumps on EQ ≠ 0. Unconstrained (log 4). -/
opaque jpzTakenOnEqual : Bool

/-- PC_CHANGE_DETECT (R6, R86; 92 D10). Left open between its two settings, so that a claim holds under both (log 5). -/
opaque pcChangeDetect : PcChangeDetect

/-- TopData, the data word when PC = 0xFFFF: a draw, "any 16-bit word, under no law" (R84; 92 D12). A free value for
each count of completed cycles (log 7). -/
opaque topData : Nat → Word

/-- ALPHABET_SIZE less one, OPEN (R6, R120; 92 D18). Its type says the table is not empty and has at most 65535
characters, and nothing else (log 9). -/
opaque alphabetSizeBelow : Fin 65535

/-- ALPHABET_SIZE, the length of the character table of DBG_LGC (R120). -/
def alphabetSize : Nat := alphabetSizeBelow.val + 1

/-- DEBUG_ALPHABET, OPEN (R6, R120; 92 D18): the character at an index of the table. Unconstrained (log 9). -/
opaque debugAlphabet : Nat → Char

end Config

end Sys2Proof
end

