-- ==== Sys2Proof/Syntax.lean ====
section
/-! DEFINITION. The instructions: one constructor per row of spec/opcode_table.json. A W2 instruction carries its data word,
the whole 16-bit word at PC+1, used as is (30_encoding R57–R61). -/

namespace Sys2Proof

/-- The 24 handled instructions (30_encoding R62). An opcode outside the table is no instruction: it decodes to an error
and executes by 40_cycle R93. -/
inductive Instr where
  /-- NOP (R92). -/
  | nop
  /-- LFM, load from memory (R96): data is the word address plus one. -/
  | lfm (data : Word)
  /-- WTM, write to memory (R97): data is the word address plus one. -/
  | wtm (data : Word)
  /-- SRA, select register active (R98): data is the new selector value. -/
  | sra (data : Word)
  /-- AXY, add (R101). -/
  | axy
  /-- SXY, subtract (R102). -/
  | sxy
  /-- MXY, multiply (R103). -/
  | mxy
  /-- DXY, divide (R104). -/
  | dxy
  /-- EQU, test for equality (R105). -/
  | equ
  /-- LEQ, test for less-than (R106). -/
  | leq
  /-- JPZ, conditional jump, the "Z" form (R108): data is the target. -/
  | jpz (data : Word)
  /-- JNZ, conditional jump, the "NZ" form (R109): data is the target. -/
  | jnz (data : Word)
  /-- JMP, unconditional jump (R110): data is the target. -/
  | jmp (data : Word)
  /-- CLR, clear flags (R113). -/
  | clr
  /-- HLT, halt (R114). -/
  | hlt
  /-- BSL, shift left (R115). -/
  | bsl
  /-- BSR, shift right (R116). -/
  | bsr
  /-- AND, bitwise and (R117). -/
  | and
  /-- ORA, bitwise or (R118). -/
  | ora
  /-- XOR, bitwise exclusive or (R119). -/
  | xor
  /-- DWR, load immediate (R99): data is the immediate value. -/
  | dwr (data : Word)
  /-- DBG_LGC, log a character (R120): data is an index into the debug alphabet. -/
  | dbgLgc (data : Word)
  /-- DGB_MEM, dump memory (R121). -/
  | dgbMem
  /-- DGB_INP, read a key (R122). -/
  | dgbInp
  deriving DecidableEq, Repr

end Sys2Proof
end

