-- ==== Sys2Proof/Decode.lean ====
section
/-! DEFINITION. The dispatch table of 30_encoding R62, the decoder and the encoder. The opcode is the whole word 0 and all
16 bits are compared (R58); word 1, read in every cycle (R63), is the operand of a W2 row and is ignored by a W1 row. -/

namespace Sys2Proof

/-- The debug codes, in the order the source lists the mnemonics (30_encoding R65; 92 D15; log 12). -/
def debugCodes : DebugCodes := { dbgLgc := 0xC000, dgbMem := 0xC001, dgbInp := 0xC002 }

/-- A row of the dispatch table: the opcode, its mnemonic, and its format with the instruction it stands for. -/
inductive DispatchRow where
  /-- Format W1, one word (R59). -/
  | w1 (code : Word) (mnemonic : String) (instr : Instr)
  /-- Format W2, the opcode and the data word (R60). -/
  | w2 (code : Word) (mnemonic : String) (instr : Word → Instr)

/-- The opcode a row matches. -/
def DispatchRow.code : DispatchRow → Word
  | .w1 code _ _ => code
  | .w2 code _ _ => code

/-- The name of a row, as opcode_table.json spells it (R64, R65). -/
def DispatchRow.mnemonic : DispatchRow → String
  | .w1 _ mnemonic _ => mnemonic
  | .w2 _ mnemonic _ => mnemonic

/-- The instruction a row gives for a data word; a W1 row ignores it (R63). -/
def DispatchRow.instruction : DispatchRow → Word → Instr
  | .w1 _ _ instr, _ => instr
  | .w2 _ _ instr, data => instr data

/-- The CPU range 0x0000–0x0014 (30_encoding R62, R64). -/
def cpuRows : List DispatchRow :=
  [ .w1 0x0000 "NOP" .nop
  , .w2 0x0001 "LFM" .lfm
  , .w2 0x0002 "WTM" .wtm
  , .w2 0x0003 "SRA" .sra
  , .w1 0x0004 "AXY" .axy
  , .w1 0x0005 "SXY" .sxy
  , .w1 0x0006 "MXY" .mxy
  , .w1 0x0007 "DXY" .dxy
  , .w1 0x0008 "EQU" .equ
  , .w1 0x0009 "LEQ" .leq
  , .w2 0x000A "JPZ" .jpz
  , .w2 0x000B "JNZ" .jnz
  , .w2 0x000C "JMP" .jmp
  , .w1 0x000D "CLR" .clr
  , .w1 0x000E "HLT" .hlt
  , .w1 0x000F "BSL" .bsl
  , .w1 0x0010 "BSR" .bsr
  , .w1 0x0011 "AND" .and
  , .w1 0x0012 "ORA" .ora
  , .w1 0x0013 "XOR" .xor
  , .w2 0x0014 "DWR" .dwr ]

/-- The debug-extension range (30_encoding R62, R65). -/
def debugRows : List DispatchRow :=
  [ .w2 debugCodes.dbgLgc "DBG_LGC" .dbgLgc
  , .w1 debugCodes.dgbMem "DGB_MEM" .dgbMem
  , .w1 debugCodes.dgbInp "DGB_INP" .dgbInp ]

/-- The fixed dispatch table: the CPU range plus the debug-extension range (40_cycle R85). -/
def dispatchTable : List DispatchRow := cpuRows ++ debugRows

/-- Why two words are no handled instruction. -/
inductive DecodeError where
  /-- The opcode is none of the 24 codes (R67), the graphics namespace 0xF000–0xFFFF included (R66). -/
  | illegalOpcode (op : Word)
  deriving DecidableEq, Repr

/-- The instruction of an opcode word and the data word after it (40_cycle R85): total on any two words. -/
def decode (op data : Word) : Except DecodeError Instr :=
  match dispatchTable.find? (fun row => row.code == op) with
  | some row => .ok (row.instruction data)
  | none => .error (.illegalOpcode op)

/-- The opcode word of an instruction (30_encoding R62). -/
def Instr.opcode : Instr → Word
  | .nop => 0x0000
  | .lfm _ => 0x0001
  | .wtm _ => 0x0002
  | .sra _ => 0x0003
  | .axy => 0x0004
  | .sxy => 0x0005
  | .mxy => 0x0006
  | .dxy => 0x0007
  | .equ => 0x0008
  | .leq => 0x0009
  | .jpz _ => 0x000A
  | .jnz _ => 0x000B
  | .jmp _ => 0x000C
  | .clr => 0x000D
  | .hlt => 0x000E
  | .bsl => 0x000F
  | .bsr => 0x0010
  | .and => 0x0011
  | .ora => 0x0012
  | .xor => 0x0013
  | .dwr _ => 0x0014
  | .dbgLgc _ => debugCodes.dbgLgc
  | .dgbMem => debugCodes.dgbMem
  | .dgbInp => debugCodes.dgbInp

/-- The data word of a W2 instruction (R60), none for W1 (R59). -/
def Instr.dataWord : Instr → Option Word
  | .lfm data | .wtm data | .sra data => some data
  | .jpz data | .jnz data | .jmp data => some data
  | .dwr data | .dbgLgc data => some data
  | .nop | .axy | .sxy | .mxy | .dxy | .equ | .leq => none
  | .clr | .hlt | .bsl | .bsr | .and | .ora | .xor => none
  | .dgbMem | .dgbInp => none

/-- The length in words: 2 for the operand-bearing instructions, 1 for the others (R57, R62). -/
def Instr.length (i : Instr) : Nat := if i.dataWord.isSome then 2 else 1

/-- The words of an instruction, the opcode first (R57, R59, R60). -/
def encode (i : Instr) : List Word := i.opcode :: i.dataWord.toList

/-- What the decoder reads from an instruction given as one number, word 0 in its low 16 bits and word 1 above it, the
bits above `nbits` zero. -/
def decodeTableWord (nbits w : Nat) : Option Instr :=
  let v := w % 2 ^ nbits
  match decode (Word.ofNat v) (Word.ofNat (v / 65536)) with
  | .ok i => some i
  | .error _ => none

end Sys2Proof
end

