-- ==== Sys2Proof/Machine/State.lean ====
section
/-! DEFINITION. The state of the machine: everything 10_state gives it (R13, R28, R29, R35), the host's offered key values,
and the state right after reset (R32, R144, R145). -/

namespace Sys2Proof.Machine

/-- The 65536 words of memory (20_memory R36) as (byte address, byte) cells. Word `a` stands in cells `2a` (bits 15:8) and
`2a + 1` (bits 7:0), "big-endian by convention" (R40). The block has no byte address: no operation but a whole word's
reaches a cell (log 1). -/
abbrev Memory := List Host.Cell

/-- What a byte that no cell lists reads as: memory is zero at reset (70_reset_and_hazards R145). -/
def Memory.unlisted : Byte := 0

/-- The canonical form: addresses strictly rising and inside the 65536 words, and no cell listed that holds what an
unlisted byte reads as. -/
abbrev Memory.wf (m : Memory) : Prop :=
  m.Pairwise (fun c d => c.1 < d.1) ∧ ∀ c ∈ m, c.2 ≠ Memory.unlisted ∧ c.1 < 2 * Config.memWords

/-- The kinds of model fault (60_exceptions R128). -/
inductive FaultKind where
  /-- LFM and WTM with data = 0 (R96, R97). -/
  | addressUnderflow
  /-- SRA with data > 1 (R98). -/
  | selectorRange
  /-- DBG_LGC with an index outside the alphabet (R120). -/
  | alphabetRange
  deriving DecidableEq, Repr

/-- What a model fault records: the kind, whose code R128 gives, the address of the opcode word, the opcode word, and the
latched data word (60_exceptions R129). -/
structure FaultRecord where
  /-- The kind of fault. -/
  kind : FaultKind
  /-- pc_before, the address of the faulting opcode word. -/
  pc : Word
  /-- The opcode word. -/
  op : Word
  /-- The latched data word. -/
  data : Word
  deriving DecidableEq, Repr

/-- The run state (10_state R28). -/
inductive RunState where
  /-- Cycles are issued. -/
  | running
  /-- HALT ≠ 0 at the end of a cycle (40_cycle R89). -/
  | halted
  /-- A model fault was raised (60_exceptions R127): never final, never cleared. -/
  | faulted (record : FaultRecord)
  deriving DecidableEq, Repr

/-- The events of the output trace (10_state R29). -/
inductive Event where
  /-- LogChar(c), from DBG_LGC. -/
  | logChar (c : Char)
  /-- MemDump(m), from DGB_MEM: the whole memory, its 65536 words, at that moment (log 11). -/
  | memDump (m : Memory)
  /-- KeyRead(v), from DGB_INP. -/
  | keyRead (v : Word)
  /-- IllegalOpcode(pc, op), from an illegal opcode. -/
  | illegalOpcode (pc op : Word)
  deriving DecidableEq, Repr

/-- The state. Its first eight fields are the architectural state of R13. -/
structure State where
  /-- X (R14). -/
  x : Word
  /-- Y (R15). -/
  y : Word
  /-- PC, a word address (R18). -/
  pc : Word
  /-- EQ, the source's Equal flag (R20). -/
  eq : Word
  /-- SEL, the source's ActiveRegisterSelector (R16, R21). -/
  sel : Word
  /-- DBZ, the source's DivideByZero (R22). -/
  dbz : Word
  /-- HALT, the source's Halt (R23). -/
  halt : Word
  /-- The word memory (20_memory R36). -/
  mem : Memory
  /-- Running, Halted or Faulted (R28). -/
  runState : RunState
  /-- The output trace, oldest event first (R29). -/
  trace : List Event
  /-- The count of completed cycles, the model's own (R35); it also numbers the TopData draws (log 7). -/
  cycles : Nat
  /-- The key values the host has offered at the key input port (R31) and DGB_INP has not yet taken, oldest first:
  the model's own field for the host's key values (log 10). -/
  keyInput : List Word
  deriving DecidableEq, Repr

/-- Why no cycle is taken (40_cycle R82). Both are raised by `step` alone, never by an instruction. -/
inductive Fault where
  /-- The run is Halted: no further cycle is issued (R89, R140). Safe: the machine has no step here. -/
  | halted
  /-- The run is Faulted with this record: no later step is enabled (60_exceptions R127). Safe: the spec says nothing
  further about the run. -/
  | modelFault (record : FaultRecord)
  deriving DecidableEq, Repr

/-- What is refused. -/
inductive Refusal where
  /-- Raised by an arm of `exec` for an instruction that has no meaning yet (no arm now). Safe. -/
  | notModelled (mnemonic : String)
  /-- Raised by `launch`: the image is shorter than 10 bytes (70_reset_and_hazards R147). Safe: no cycle is enabled. -/
  | shortImage
  /-- Raised by `launch`: the first 10 bytes are not the magic (R147). Safe. -/
  | badMagic
  /-- Raised by `launch`: an odd number of bytes follows the magic (R147). Safe. -/
  | oddByteCount
  deriving DecidableEq, Repr

/-- The state right after reset, which is construction (R32, R144): every register and flag 0, PC at the reset vector
0x0000 (R47), every memory word 0 (R145), Running, the trace empty, no cycle counted (R35). That no key value has been
offered is the model's choice (log 10). -/
def State.reset : State :=
  { x := 0, y := 0, pc := 0, eq := 0, sel := 0, dbz := 0, halt := 0, mem := [], runState := .running, trace := [],
    cycles := 0, keyInput := [] }

end Sys2Proof.Machine
end

