-- ==== Sys2Proof/Machine/Ops.lean ====
section
/-! DEFINITION. The named operations over memory, registers, the trace and the key input port; the end of a cycle; and
raising a model fault. The block has no return from a fault (60_exceptions R133). -/

namespace Sys2Proof.Machine

/-! ## Memory -/

/-- One byte of memory: what its cell holds, or what an unlisted byte reads as. -/
def Memory.readByte : Memory → Nat → Byte
  | [], _ => Memory.unlisted
  | (k, v) :: m, a => if k = a then v else Memory.readByte m a

/-- Put a cell in front of cells at higher addresses, unless it holds what an unlisted byte reads as. -/
def Memory.cons (a : Nat) (b : Byte) (m : Memory) : Memory := if b = Memory.unlisted then m else (a, b) :: m

/-- Store one byte, keeping the canonical form: storing what an unlisted byte reads as removes the cell. -/
def Memory.writeByte : Memory → Nat → Byte → Memory
  | [], a, b => Memory.cons a b []
  | (k, v) :: m, a, b =>
    if a < k then Memory.cons a b ((k, v) :: m)
    else if a = k then Memory.cons a b m
    else (k, v) :: Memory.writeByte m a b

/-- `MemRead(a, 1)`: the word at word address a (00_scope R9). -/
def Memory.readWord (m : Memory) (a : Nat) : Word :=
  Word.ofBytes (m.readByte (2 * a)) (m.readByte (2 * a + 1))

/-- `MemWrite(a, 1, w)`: store one word at word address a (00_scope R9). -/
def Memory.writeWord (m : Memory) (a : Nat) (w : Word) : Memory :=
  (m.writeByte (2 * a) w.highByte).writeByte (2 * a + 1) w.lowByte

/-- `MemRead(a, n)`: the n words at word addresses a .. a+n−1 (00_scope R9). -/
def Memory.readWords (m : Memory) (a n : Nat) : List Word := (List.range n).map (fun i => m.readWord (a + i))

/-- `Memory[a+i] <- w_i` for every word of a list. -/
def Memory.writeWords : Memory → Nat → List Word → Memory
  | m, _, [] => m
  | m, a, w :: ws => Memory.writeWords (m.writeWord a w) (a + 1) ws

/-- The memory after a one-word store. -/
def State.store (a : Nat) (w : Word) (s : State) : State := { s with mem := s.mem.writeWord a w }

/-! ## General registers and flags -/

/-- The two general registers (10_state R14, R15). -/
inductive Reg where
  /-- X. -/
  | x
  /-- Y. -/
  | y
  deriving DecidableEq, Repr

/-- `x[r]` (00_scope R8). -/
def State.getReg (r : Reg) (s : State) : Word :=
  match r with
  | .x => s.x
  | .y => s.y

/-- `x[r] <- v` (00_scope R8). -/
def State.setReg (r : Reg) (v : Word) (s : State) : State :=
  match r with
  | .x => { s with x := v }
  | .y => { s with y := v }

/-- `EQ <- v`. -/
def State.setEq (v : Word) (s : State) : State := { s with eq := v }

/-- `SEL <- v`. -/
def State.setSel (v : Word) (s : State) : State := { s with sel := v }

/-- `DBZ <- v`. -/
def State.setDbz (v : Word) (s : State) : State := { s with dbz := v }

/-- `HALT <- v`. -/
def State.setHalt (v : Word) (s : State) : State := { s with halt := v }

/-! ## The host's ports -/

/-- `emit e`: append an event to the output trace (00_scope R10; 10_state R29). -/
def State.emit (e : Event) (s : State) : State := { s with trace := s.trace ++ [e] }

/-- The key values left once DGB_INP has taken the oldest one. -/
def State.dropKey (s : State) : State := { s with keyInput := s.keyInput.tail }

/-- The host's move at the key input port: it supplies a key value (46_debug_extension R122; 60_exceptions R142). It is
no step of the machine. -/
def State.offerKey (v : Word) (s : State) : State := { s with keyInput := s.keyInput ++ [v] }

/-! ## Fetch -/

/-- The opcode word, read at PC (40_cycle R83). -/
def State.fetchOpcode (s : State) : Word := s.mem.readWord s.pc.toNat

/-- The data word: read at PC+1 if PC ≠ 0xFFFF, else the TopData draw of this cycle (40_cycle R84; log 7). -/
def State.fetchData (s : State) : Word :=
  if s.pc.toNat = Config.lastAddress then Config.topData s.cycles else s.mem.readWord (s.pc.toNat + 1)

/-! ## The end of a cycle -/

/-- `npc <- pc_before + len` in unbounded integers, then 0 if it is above 0xFFFF (40_cycle R87). -/
def advance (pcBefore : Word) (len : Nat) : Word :=
  if pcBefore.toNat + len > Config.lastAddress then 0 else Word.ofNat (pcBefore.toNat + len)

/-- PC after the PC-change check and the advance (40_cycle R86, R87). `jump` is what a jump handler wrote to PC, none if it
wrote nothing. Only a taken jump to pc_before itself depends on PC_CHANGE_DETECT: by value it counts as unchanged. -/
def nextPc (pcBefore : Word) (len : Nat) (jump : Option Word) : Word :=
  match jump with
  | none => advance pcBefore len
  | some target =>
    if target = pcBefore then
      match Config.pcChangeDetect with
      | .byValue => advance pcBefore len
      | .byWrite => target
    else target

/-- The end of a completed cycle: the PC update (R86, R87), the count (R35, R89), and the halt check (R89). -/
def State.endCycle (len : Nat) (jump : Option Word) (s : State) : State :=
  { s with
    pc := nextPc s.pc len jump
    cycles := s.cycles + 1
    runState := if s.halt = 0 then s.runState else .halted }

/-! ## Model faults -/

/-- The code R128 assigns to a kind of model fault. -/
def FaultKind.code : FaultKind → Nat
  | .addressUnderflow => 1
  | .selectorRange => 2
  | .alphabetRange => 3

/-- `raise ModelFault(kind, {pc: pc_before, op, data})` (60_exceptions R127, R129; 40_cycle R91): the run state becomes
Faulted and nothing else changes, neither PC nor the cycle count. -/
def State.raiseModelFault (kind : FaultKind) (op data : Word) (s : State) : State :=
  { s with runState := .faulted { kind := kind, pc := s.pc, op := op, data := data } }

end Sys2Proof.Machine
end

