-- ==== Sys2Proof/Machine/Operands.lean ====
section
/-! DEFINITION. The operand roles: the active and the inactive register (10_state R16), the effective address of LFM and
WTM (41_transfer), the selector operand of SRA, the alphabet index of DBG_LGC, and the results of the ALU on words
(42_alu_arith_compare, 45_shift_logic). -/

namespace Sys2Proof.Machine

/-- The active register: X when SEL = 0, Y when SEL = 1 (10_state R16; 92 D7). SEL holds no other value (R24); the model
lets one select Y (log 2). -/
def State.act (s : State) : Reg := if s.sel = 0 then .x else .y

/-- The inactive register, the other one (10_state R16). -/
def State.inact (s : State) : Reg := if s.sel = 0 then .y else .x

/-- `x[act]`. -/
def State.activeValue (s : State) : Word := s.getReg s.act

/-- `x[inact]`. -/
def State.inactiveValue (s : State) : Word := s.getReg s.inact

/-- `x[act] <- v`. -/
def State.setActive (v : Word) (s : State) : State := s.setReg s.act v

/-- The word address LFM and WTM reach, `data − 1` as an integer: none when data = 0 (R96, R97; 92 D13). -/
def effectiveAddress (data : Word) : Option Nat := if data = 0 then none else some (data.toNat - 1)

/-- The new value of SEL, none when data > 1 (R98; 92 D7). -/
def selectorOperand (data : Word) : Option Word := if data.toNat > 1 then none else some data

/-- The character at an index of the alphabet, none when the index is not inside it (R120; 92 D18). -/
def alphabetOperand (data : Word) : Option Char :=
  if data.toNat ≥ Config.alphabetSize then none else some (Config.debugAlphabet data.toNat)

/-! ## ALU results: unsigned operands, computed on integers, reduced to 16 bits (R100) -/

/-- `(a + b) mod 2^16` (R101). -/
def addResult (a b : Word) : Word := Word.ofNat (a.toNat + b.toNat)

/-- `(a − b) mod 2^16` (R102). -/
def subResult (a b : Word) : Word := BitVec.ofInt 16 ((a.toNat : Int) - (b.toNat : Int))

/-- `(a · b) mod 2^16` (R103). -/
def mulResult (a b : Word) : Word := Word.ofNat (a.toNat * b.toNat)

/-- `floor(a / b)`, and 0 when b = 0 (R104). -/
def divResult (a b : Word) : Word := if b = 0 then 0 else Word.ofNat (a.toNat / b.toNat)

/-- `(a · 2) mod 2^16`: bit 15 is lost (R115). -/
def shiftLeftResult (a : Word) : Word := Word.ofNat (a.toNat * 2)

/-- `floor(a / 2)`: a logical shift, bit 0 is lost (R116; 92 D14). -/
def shiftRightResult (a : Word) : Word := Word.ofNat (a.toNat / 2)

/-- Bit by bit AND (R117). -/
def andResult (a b : Word) : Word := a &&& b

/-- Bit by bit OR (R118). -/
def orResult (a b : Word) : Word := a ||| b

/-- Bit by bit exclusive OR (R119). -/
def xorResult (a b : Word) : Word := a ^^^ b

end Sys2Proof.Machine
end

