-- ==== Sys2Proof/Machine/Flags.lean ====
section
/-! DEFINITION. What the instructions compute for the flags, and what they read of them (10_state R19–R24). -/

namespace Sys2Proof.Machine

/-- A flag word: 1 when the tested relation held, 0 when it did not (10_state R20; 92 D5). -/
def flagWord (holds : Bool) : Word := if holds then 1 else 0

/-- EQ after EQU: X = Y (R105). -/
def equalFlag (a b : Word) : Word := flagWord (a == b)

/-- EQ after LEQ: X < Y, unsigned and strict (R106; 90_conflicts C1). -/
def lessFlag (a b : Word) : Word := flagWord (decide (a.toNat < b.toNat))

/-- DBZ after a division by `b`: set when b = 0, else unchanged (R104; 10_state R22; 92 D4). -/
def divideByZeroFlag (b old : Word) : Word := if b = 0 then 1 else old

/-- JPZ's condition: EQ ≠ 0 if JPZ_TAKEN_ON_EQUAL, else EQ = 0 (R108; 92 D8). -/
def jpzTaken (s : State) : Bool := if Config.jpzTakenOnEqual then s.eq != 0 else s.eq == 0

/-- JNZ's condition: EQ = 0 if JPZ_TAKEN_ON_EQUAL, else EQ ≠ 0 (R109; 92 D9). -/
def jnzTaken (s : State) : Bool := if Config.jpzTakenOnEqual then s.eq == 0 else s.eq != 0

/-- `EQ <- 0; SEL <- 0; DBZ <- 0; HALT <- 0` (R113; 92 D22). -/
def State.clearFlags (s : State) : State := (((s.setEq 0).setSel 0).setDbz 0).setHalt 0

end Sys2Proof.Machine
end

