-- ==== Sys2Proof/Machine/Alu.lean ====
section
/-! DEFINITION. Arithmetic, comparison, shifts and bitwise logic (42_alu_arith_compare, 45_shift_logic). Every meaning
reads all its sources in the state before it writes (R107). -/

namespace Sys2Proof.Machine

/-- The shared shape: write a result to the active register, then end a one-word cycle. -/
def State.finishAlu (v : Word) (s : State) : State := (s.setActive v).endCycle 1 none

/-- AXY (R101): `x[act] <- (X + Y) mod 2^16`. -/
def execAxy (s : State) : Host.Outcome State Fault Refusal := .next (s.finishAlu (addResult s.x s.y))

/-- SXY (R102): `x[act] <- (X − Y) mod 2^16`, whichever register is active. -/
def execSxy (s : State) : Host.Outcome State Fault Refusal := .next (s.finishAlu (subResult s.x s.y))

/-- MXY (R103): `x[act] <- (X · Y) mod 2^16`. -/
def execMxy (s : State) : Host.Outcome State Fault Refusal := .next (s.finishAlu (mulResult s.x s.y))

/-- DXY (R104): `x[act] <- floor(X / Y)`, or 0 with DBZ set when Y = 0. -/
def execDxy (s : State) : Host.Outcome State Fault Refusal :=
  .next ((s.setDbz (divideByZeroFlag s.y s.dbz)).finishAlu (divResult s.x s.y))

/-- EQU (R105): `EQ <- (X = Y)`. -/
def execEqu (s : State) : Host.Outcome State Fault Refusal := .next ((s.setEq (equalFlag s.x s.y)).endCycle 1 none)

/-- LEQ (R106): `EQ <- (X < Y)`. -/
def execLeq (s : State) : Host.Outcome State Fault Refusal := .next ((s.setEq (lessFlag s.x s.y)).endCycle 1 none)

/-- BSL (R115): `x[act] <- (x[act] · 2) mod 2^16`. -/
def execBsl (s : State) : Host.Outcome State Fault Refusal := .next (s.finishAlu (shiftLeftResult s.activeValue))

/-- BSR (R116): `x[act] <- floor(x[act] / 2)`. -/
def execBsr (s : State) : Host.Outcome State Fault Refusal := .next (s.finishAlu (shiftRightResult s.activeValue))

/-- AND (R117): `x[act] <- x[act] AND x[inact]`. -/
def execAnd (s : State) : Host.Outcome State Fault Refusal :=
  .next (s.finishAlu (andResult s.activeValue s.inactiveValue))

/-- ORA (R118): `x[act] <- x[act] OR x[inact]`. -/
def execOra (s : State) : Host.Outcome State Fault Refusal :=
  .next (s.finishAlu (orResult s.activeValue s.inactiveValue))

/-- XOR (R119): `x[act] <- x[act] XOR x[inact]`. -/
def execXor (s : State) : Host.Outcome State Fault Refusal :=
  .next (s.finishAlu (xorResult s.activeValue s.inactiveValue))

end Sys2Proof.Machine
end

