-- ==== Sys2Proof/Machine/Control.lean ====
section
/-! DEFINITION. NOP and the illegal opcodes (40_cycle R92, R93), CLR and HLT (44_flags_halt), and the jumps
(43_control_transfer). A meaning is the rest of the cycle after decoding: the handler, then the end of the cycle. -/

namespace Sys2Proof.Machine

/-- NOP (R92): `len <- 1` and nothing else. -/
def execNop (s : State) : Host.Outcome State Fault Refusal := .next (s.endCycle 1 none)

/-- An illegal opcode (R93, R94): logged, then a NOP of one word. -/
def execIllegal (op : Word) (s : State) : Host.Outcome State Fault Refusal :=
  .next ((s.emit (.illegalOpcode s.pc op)).endCycle 1 none)

/-- CLR (R113): clears all four flags. -/
def execClr (s : State) : Host.Outcome State Fault Refusal := .next (s.clearFlags.endCycle 1 none)

/-- HLT (R114): sets HALT; its cycle completes. -/
def execHlt (s : State) : Host.Outcome State Fault Refusal := .next ((s.setHalt 1).endCycle 1 none)

/-- JPZ (R108): jumps to data if its condition holds. -/
def execJpz (data : Word) (s : State) : Host.Outcome State Fault Refusal :=
  .next (s.endCycle 2 (if jpzTaken s then some data else none))

/-- JNZ (R109): jumps to data if its condition holds. -/
def execJnz (data : Word) (s : State) : Host.Outcome State Fault Refusal :=
  .next (s.endCycle 2 (if jnzTaken s then some data else none))

/-- JMP (R110): jumps to data. -/
def execJmp (data : Word) (s : State) : Host.Outcome State Fault Refusal := .next (s.endCycle 2 (some data))

end Sys2Proof.Machine
end

