-- ==== Sys2Proof/Machine/Debug.lean ====
section
/-! DEFINITION. The debug extension: DBG_LGC, DGB_MEM and DGB_INP (46_debug_extension). -/

namespace Sys2Proof.Machine

/-- DBG_LGC (R120): emit the character at index data; a model fault when data is no index of the alphabet. -/
def execDbgLgc (data : Word) (s : State) : Host.Outcome State Fault Refusal :=
  .next (match alphabetOperand data with
    | none => s.raiseModelFault .alphabetRange (Instr.dbgLgc data).opcode data
    | some c => (s.emit (.logChar c)).endCycle 2 none)

/-- DGB_MEM (R121): emit all of memory as it stands in this cycle. -/
def execDgbMem (s : State) : Host.Outcome State Fault Refusal := .next ((s.emit (.memDump s.mem)).endCycle 1 none)

/-- DGB_INP (R122): take the oldest key value the host has supplied. While there is none the instruction holds: the cycle
is not complete and nothing changes. -/
def execDgbInp (s : State) : Host.Outcome State Fault Refusal :=
  .next (match s.keyInput with
    | [] => s
    | v :: _ => ((s.dropKey.setActive v).emit (.keyRead v)).endCycle 1 none)

end Sys2Proof.Machine
end

