-- ==== Sys2Proof/Machine/Transfer.lean ====
section
/-! DEFINITION. LFM, WTM, SRA and DWR (41_transfer). -/

namespace Sys2Proof.Machine

/-- LFM (R96): `x[act] <- MemRead(data − 1, 1)`; a model fault when data = 0. -/
def execLfm (data : Word) (s : State) : Host.Outcome State Fault Refusal :=
  .next (match effectiveAddress data with
    | none => s.raiseModelFault .addressUnderflow (Instr.lfm data).opcode data
    | some a => (s.setActive (s.mem.readWord a)).endCycle 2 none)

/-- WTM (R97): `MemWrite(data − 1, 1, x[act])`; a model fault when data = 0. -/
def execWtm (data : Word) (s : State) : Host.Outcome State Fault Refusal :=
  .next (match effectiveAddress data with
    | none => s.raiseModelFault .addressUnderflow (Instr.wtm data).opcode data
    | some a => (s.store a s.activeValue).endCycle 2 none)

/-- SRA (R98): `SEL <- data`; a model fault when data > 1. -/
def execSra (data : Word) (s : State) : Host.Outcome State Fault Refusal :=
  .next (match selectorOperand data with
    | none => s.raiseModelFault .selectorRange (Instr.sra data).opcode data
    | some v => (s.setSel v).endCycle 2 none)

/-- DWR (R99): `x[act] <- data`. -/
def execDwr (data : Word) (s : State) : Host.Outcome State Fault Refusal := .next ((s.setActive data).endCycle 2 none)

end Sys2Proof.Machine
end

