-- ==== Sys2Proof/Machine/Dispatch.lean ====
section
/-! DEFINITION. The dispatch: one arm per constructor of Instr, each one direct call of that instruction's meaning. -/

namespace Sys2Proof.Machine

def exec (i : Instr) (s : State) : Host.Outcome State Fault Refusal :=
  match i with
  | .nop => Sys2Proof.Machine.execNop s
  | .lfm data => Sys2Proof.Machine.execLfm data s
  | .wtm data => Sys2Proof.Machine.execWtm data s
  | .sra data => Sys2Proof.Machine.execSra data s
  | .axy => Sys2Proof.Machine.execAxy s
  | .sxy => Sys2Proof.Machine.execSxy s
  | .mxy => Sys2Proof.Machine.execMxy s
  | .dxy => Sys2Proof.Machine.execDxy s
  | .equ => Sys2Proof.Machine.execEqu s
  | .leq => Sys2Proof.Machine.execLeq s
  | .jpz data => Sys2Proof.Machine.execJpz data s
  | .jnz data => Sys2Proof.Machine.execJnz data s
  | .jmp data => Sys2Proof.Machine.execJmp data s
  | .clr => Sys2Proof.Machine.execClr s
  | .hlt => Sys2Proof.Machine.execHlt s
  | .bsl => Sys2Proof.Machine.execBsl s
  | .bsr => Sys2Proof.Machine.execBsr s
  | .and => Sys2Proof.Machine.execAnd s
  | .ora => Sys2Proof.Machine.execOra s
  | .xor => Sys2Proof.Machine.execXor s
  | .dwr data => Sys2Proof.Machine.execDwr data s
  | .dbgLgc data => Sys2Proof.Machine.execDbgLgc data s
  | .dgbMem => Sys2Proof.Machine.execDgbMem s
  | .dgbInp => Sys2Proof.Machine.execDgbInp s

end Sys2Proof.Machine
end

