-- ==== Sys2Proof/Machine/Step.lean ====
section
/-! DEFINITION. The step: one cycle, enabled only while the run is Running (40_cycle R82–R91). -/

namespace Sys2Proof.Machine

/-- A cycle is enabled when the run is Running: HALT = 0 and no model fault has been raised (R82). A refused launch gives
no state at all (`launch`), and a holding DGB_INP is a step that changes nothing. -/
def State.enabled (s : State) : Bool := s.runState == .running && s.halt == 0

/-- Why a state that is not enabled takes no step: the record of its model fault, or that it is Halted. -/
def State.stopReason (s : State) : Fault :=
  match s.runState with
  | .faulted record => .modelFault record
  | .running => .halted
  | .halted => .halted

/-- One cycle: fetch the opcode and the data word, decode, and run the instruction, or the illegal-opcode handler when the
opcode is in no row of the dispatch table (R83–R85). The meanings end the cycle themselves (R86–R89). -/
def step (s : State) : Host.Outcome State Fault Refusal :=
  if s.enabled then
    match decode s.fetchOpcode s.fetchData with
    | .ok i => exec i s
    | .error (.illegalOpcode op) => execIllegal op s
  else .fault s.stopReason

/-- The state with an instruction, given as one number with word 0 in its low 16 bits, stored where `step` fetches next.
At 0xFFFF only the opcode word is fetched from memory (R84). -/
def State.withFetchWord (s : State) (nbits w : Nat) : State :=
  let v := w % 2 ^ nbits
  let mem := s.mem.writeWord s.pc.toNat (Word.ofNat v)
  { s with mem := if s.pc.toNat = Config.lastAddress then mem
                  else mem.writeWord (s.pc.toNat + 1) (Word.ofNat (v / 65536)) }

end Sys2Proof.Machine
end

