-- ==== Sys2Proof/Machine/Rom.lean ====
section
/-! DEFINITION. The ROM image (30_encoding R69, R70) and the launch: how a program comes to run (70_reset_and_hazards
R144–R148). The launch is the host's, before the first cycle; it is no step of the machine. -/

namespace Sys2Proof.Machine

/-- The 10-byte ASCII magic ".VISOFOX16" (R69; its byte values 93 G1; log 26). -/
def romMagic : List Byte := [0x2E, 0x56, 0x49, 0x53, 0x4F, 0x46, 0x4F, 0x58, 0x31, 0x36]

/-- The 2-word footer, NOP then HLT (R69). -/
def romFooter : List Word := [Instr.nop.opcode, Instr.hlt.opcode]

/-- The bytes of words, each big-endian (R70). -/
def wordsToBytes : List Word → List Byte
  | [] => []
  | w :: ws => w.highByte :: w.lowByte :: wordsToBytes ws

/-- The words of bytes, two at a time, the first byte the high one (R70); a last byte with no partner is dropped. -/
def bytesToWords : List Byte → List Word
  | high :: low :: rest => Word.ofBytes high low :: bytesToWords rest
  | [_] => []
  | [] => []

/-- The image of a program: magic, program, footer (R69). -/
def romImage (program : List Word) : List Byte := romMagic ++ wordsToBytes (program ++ romFooter)

/-- Memory at the first cycle: the first 4096 words of the image at address 0, every other word 0 (R145, R146). -/
def loadedMemory (words : List Word) : Memory := Memory.writeWords [] 0 (words.take Config.romLoadLimit)

/-- The launch: refuse a malformed image (R147), else the reset state over the loaded memory (R146, R148). -/
def launch (image : List Byte) : Host.Outcome State Fault Refusal :=
  if image.length < romMagic.length then .refused .shortImage
  else if image.take romMagic.length ≠ romMagic then .refused .badMagic
  else if (image.drop romMagic.length).length % 2 ≠ 0 then .refused .oddByteCount
  else .next { State.reset with mem := loadedMemory (bytesToWords (image.drop romMagic.length)) }

end Sys2Proof.Machine
end

