-- ==== Sys2Proof/WellFormed.lean ====
section
/-! DEFINITION. When an instruction's operand is one the spec gives a meaning to: the duties (a), (b) and (c) of
70_reset_and_hazards R152. Every data word is a legal encoding (30_encoding R61), so this limits no encoding and no
decoding; it names the operands on which no model fault is raised (60_exceptions R128). -/

namespace Sys2Proof

/-- R152 (a): LFM and WTM need data ≠ 0. -/
def addressOperandOk (data : Word) : Bool := data ≠ 0

/-- R152 (b): SRA needs data ∈ {0, 1}. -/
def selectorOperandOk (data : Word) : Bool := data.toNat ≤ 1

/-- R152 (c): DBG_LGC needs an index inside the alphabet. -/
def alphabetOperandOk (data : Word) : Bool := data.toNat < Config.alphabetSize

/-- The operand keeps the program's duties (a) to (c) of R152. -/
def Instr.wellFormed : Instr → Bool
  | .lfm data => addressOperandOk data
  | .wtm data => addressOperandOk data
  | .sra data => selectorOperandOk data
  | .dbgLgc data => alphabetOperandOk data
  | .nop | .axy | .sxy | .mxy | .dxy | .equ | .leq => true
  | .jpz _ | .jnz _ | .jmp _ | .dwr _ => true
  | .clr | .hlt | .bsl | .bsr | .and | .ora | .xor => true
  | .dgbMem | .dgbInp => true

end Sys2Proof
end

