-- ==== Sys2Proof/Safety.lean ====
section
/-! DEFINITION. The terms claims about runs use: the machine's moves and the host's, the end of a run, the runs the spec gives a
meaning to, and the invariant of every state a run reaches. -/

namespace Sys2Proof.Machine

/-- No model fault has been raised: the premise of every claim about a program (60_exceptions R127). -/
def State.unfaulted (s : State) : Bool :=
  match s.runState with
  | .faulted _ => false
  | .running => true
  | .halted => true

/-- The end of a run: the run state is Halted (60_exceptions R143). -/
def State.ended (s : State) : Bool := s.runState == .halted

/-- What is observed of a run at its end: X, Y, PC, the flags, memory and the trace (60_exceptions R143). -/
structure Observation where
  /-- X and Y. -/
  registers : Word × Word
  /-- PC. -/
  pc : Word
  /-- EQ, SEL, DBZ and HALT. -/
  flags : Word × Word × Word × Word
  /-- Memory. -/
  mem : Memory
  /-- The output trace. -/
  trace : List Event
  deriving DecidableEq, Repr

/-- The observation a state gives (60_exceptions R143): neither the cycle count nor the host's offered keys. -/
def State.observe (s : State) : Observation :=
  { registers := (s.x, s.y), pc := s.pc, flags := (s.eq, s.sel, s.dbz, s.halt), mem := s.mem, trace := s.trace }

/-- The next cycle keeps the program's duties (a) to (c) of 70_reset_and_hazards R152. -/
def State.keepsDuties (s : State) : Bool :=
  match decode s.fetchOpcode s.fetchData with
  | .ok i => i.wellFormed
  | .error _ => true

/-- Every flag holds 0 or 1 (10_state R24). -/
def State.FlagsLegal (s : State) : Prop := s.eq.toNat ≤ 1 ∧ s.sel.toNat ≤ 1 ∧ s.dbz.toNat ≤ 1 ∧ s.halt.toNat ≤ 1

/-- The invariant of every reached state: memory in its canonical form, the flags legal (10_state R24), Halted exactly when
HALT ≠ 0 (10_state R28), and at most one event per completed cycle (46_debug_extension R124). -/
structure State.Inv (s : State) : Prop where
  memory : s.mem.wf
  flags : s.FlagsLegal
  halted : s.runState = .halted ↔ s.halt ≠ 0
  events : s.trace.length ≤ s.cycles

/-- The states of runs: a launch, then steps of the machine and keys offered by the host, in any order (60_exceptions R142). -/
inductive Reachable : State → Prop where
  /-- The host launches an image. -/
  | launched {image : List Byte} {s : State} (h : launch image = .next s) : Reachable s
  /-- The machine takes a step. -/
  | stepped {s t : State} (h : Reachable s) (hs : step s = .next t) : Reachable t
  /-- The host supplies a key value. -/
  | keyOffered {s : State} (v : Word) (h : Reachable s) : Reachable (s.offerKey v)

end Sys2Proof.Machine
end

