-- ==== Sys2Proof/Certificates/Slice0/Obligations.lean ====
section
/-! DEFINITION. The statements for the provers. The first part names the shapes they share (what an instruction leaves
unchanged, how its cycle ends, how it is encoded); each statement then says what a rule of spec/ says. -/

open Sys2Proof Sys2Proof.Machine

namespace Sys2Proof.Claims

/-- No byte of memory differs. -/
def SameMemory (s t : State) : Prop := ∀ a, t.mem.readByte a = s.mem.readByte a

/-- The four flags are unchanged. -/
def SameFlags (s t : State) : Prop := t.eq = s.eq ∧ t.sel = s.sel ∧ t.dbz = s.dbz ∧ t.halt = s.halt

/-- X and Y are unchanged. -/
def SameRegisters (s t : State) : Prop := t.x = s.x ∧ t.y = s.y

/-- The output trace and the host's offered keys are unchanged. -/
def SamePorts (s t : State) : Prop := t.trace = s.trace ∧ t.keyInput = s.keyInput

/-- The register SEL names in s holds v, and the other one is unchanged. -/
def WritesActive (s t : State) (v : Word) : Prop := t.getReg s.act = v ∧ t.getReg s.inact = s.getReg s.inact

/-- As `WritesActive`, the value given as a number. -/
def WritesActiveNat (s t : State) (n : Nat) : Prop :=
  (t.getReg s.act).toNat = n ∧ t.getReg s.inact = s.getReg s.inact

/-- The cycle completed: it is counted (10_state R35), PC went past an instruction of len words, and a run that was not
halted goes on as it was. -/
def GoesOn (s t : State) (len : Nat) : Prop :=
  t.pc = advance s.pc len ∧ (s.halt = 0 → t.runState = s.runState) ∧ t.cycles = s.cycles + 1

/-- The one word `code` stands for i, whatever word follows it, and i is encoded as that word (30_encoding R59). -/
def EncodedW1 (code : Word) (i : Instr) : Prop := encode i = [code] ∧ ∀ next, decode code next = .ok i

/-- The words `code, data` stand for `f data`, for every data word, and it is encoded as those words (30_encoding R60). -/
def EncodedW2 (code : Word) (f : Word → Instr) : Prop :=
  ∀ data, encode (f data) = [code, data] ∧ decode code data = .ok (f data)

/-- The model fault a state has recorded; nothing but the run state differs from s (40_cycle R91). -/
def FaultsAs (s t : State) (kind : FaultKind) (op data : Word) : Prop :=
  t = { s with runState := .faulted { kind := kind, pc := s.pc, op := op, data := data } }

/-- What PC holds after a taken jump to data (40_cycle R86): the target, but for a jump to its own address, where
PC_CHANGE_DETECT decides whether PC then also advances by 2. -/
def jumpTarget (s : State) (data : Word) : Word :=
  if data = s.pc ∧ Config.pcChangeDetect = .byValue then advance s.pc 2 else data

/-- The jumps. -/
def IsJump (i : Instr) : Prop := ∃ data, i = .jpz data ∨ i = .jnz data ∨ i = .jmp data

end Sys2Proof.Claims

open Sys2Proof.Claims

/-! ## Reset and launch -/

/-- 10_state R32: every register and flag is 0 at reset, the run state is Running and the output trace is empty. -/
def Obligations.ResetZeroesRegistersAndFlags : Prop :=
  State.reset.x = 0 ∧ State.reset.y = 0 ∧ State.reset.pc = 0 ∧ State.reset.eq = 0 ∧ State.reset.sel = 0 ∧
  State.reset.dbz = 0 ∧ State.reset.halt = 0 ∧ State.reset.runState = .running ∧ State.reset.trace = []

/-- 70_reset_and_hazards R145: before the ROM is loaded every one of the 65536 memory words is 0x0000. -/
def Obligations.ResetMemoryIsZero : Prop := ∀ a < 65536, State.reset.mem.readWord a = 0x0000

/-- The launch of the image of any program: the reset state, but for memory, whose word i is word i of the program followed by the
footer NOP, HLT for i below 4096, and 0 elsewhere (that the footer is loaded is the spec's decision D31, log 17). -/
def Obligations.LaunchLoadsProgramAndFooter : Prop :=
  ∀ program : List Word, ∃ s, launch (romImage program) = .next s ∧
    s = { State.reset with mem := s.mem } ∧
    (∀ a < 4096, s.mem.readWord a = ((program ++ [0x0000, 0x000E])[a]?).getD 0) ∧
    (∀ a, 4096 ≤ a → s.mem.readWord a = 0)

/-- A launch is refused exactly when the image is shorter than 10 bytes, does not begin with the magic ".VISOFOX16", or has an
odd number of bytes after it (the spec's decision D31, log 17; the magic's byte values are G1, log 26). -/
def Obligations.LaunchRefusesExactlyMalformedImages : Prop :=
  ∀ image : List Byte,
    ((∃ s, launch image = .next s) ↔
      image.take 10 = [0x2E, 0x56, 0x49, 0x53, 0x4F, 0x46, 0x4F, 0x58, 0x31, 0x36] ∧ image.length % 2 = 0) ∧
    (image.length < 10 → launch image = .refused .shortImage) ∧
    (∀ f, launch image ≠ .fault f)

/-! ## Encoding -/

/-- 30_encoding R64: the 21 codes of the base CPU namespace, 0x0000 to 0x0014. -/
def Obligations.BaseNamespaceCodes : Prop :=
  EncodedW1 0x0000 .nop ∧ EncodedW2 0x0001 .lfm ∧ EncodedW2 0x0002 .wtm ∧ EncodedW2 0x0003 .sra ∧
  EncodedW1 0x0004 .axy ∧ EncodedW1 0x0005 .sxy ∧ EncodedW1 0x0006 .mxy ∧ EncodedW1 0x0007 .dxy ∧
  EncodedW1 0x0008 .equ ∧ EncodedW1 0x0009 .leq ∧ EncodedW2 0x000A .jpz ∧ EncodedW2 0x000B .jnz ∧
  EncodedW2 0x000C .jmp ∧ EncodedW1 0x000D .clr ∧ EncodedW1 0x000E .hlt ∧ EncodedW1 0x000F .bsl ∧
  EncodedW1 0x0010 .bsr ∧ EncodedW1 0x0011 .and ∧ EncodedW1 0x0012 .ora ∧ EncodedW1 0x0013 .xor ∧
  EncodedW2 0x0014 .dwr

/-- Decode and encode agree, for all instructions with every data word: decoding the words of i gives i, whatever stands in
the word after a one-word instruction; and two words that decode to i begin with the words of i. -/
def Obligations.DecodeEncodeAgree : Prop :=
  (∀ (i : Instr) (next : Word), decode i.opcode (i.dataWord.getD next) = .ok i) ∧
  (∀ (op data : Word) (i : Instr), decode op data = .ok i → encode i = [op, data].take i.length)

/-- The words of an instruction, stored at PC in a canonical memory (log 1) with room for its data word, are what the
next cycle fetches and decodes. -/
def Obligations.StoredInstructionIsFetched : Prop :=
  ∀ (s : State) (i : Instr), s.mem.wf → s.pc.toNat + 1 < 65536 →
    let t := { s with mem := s.mem.writeWords s.pc.toNat (encode i) }
    decode t.fetchOpcode t.fetchData = .ok i

/-- The illegal opcodes are exactly 0x0015–0xBFFF, 0xC003–0xEFFF and 0xF000–0xFFFF, whatever word follows (that unmapped
values are illegal is the spec's decision D17, and the debug codes are its decision D15; log 22, log 12). -/
def Obligations.IllegalOpcodesAreTheThreeRanges : Prop :=
  ∀ op data : Word,
    decode op data = .error (.illegalOpcode op) ↔
      (0x0015 ≤ op.toNat ∧ op.toNat ≤ 0xBFFF) ∨ (0xC003 ≤ op.toNat ∧ op.toNat ≤ 0xEFFF) ∨
      (0xF000 ≤ op.toNat ∧ op.toNat ≤ 0xFFFF)

/-! ## The cycle -/

/-- A step runs the decoded instruction: in an enabled state (Running with HALT = 0) the step is exec of the instruction that
the opcode word at PC and the data word decode to, with nothing around it; exec itself ends the cycle. -/
def Obligations.StepRunsDecodedInstruction : Prop :=
  ∀ (s : State) (i : Instr), s.runState = .running → s.halt = 0 →
    decode s.fetchOpcode s.fetchData = .ok i → step s = exec i s

/-- An illegal opcode executes as a NOP of one word and emits IllegalOpcode(pc, op); nothing else changes (the event form is
the spec's decision D17, log 22). -/
def Obligations.IllegalOpcodeIsLoggedNop : Prop :=
  ∀ (s : State) (op : Word), s.runState = .running → s.halt = 0 → op = s.mem.readWord s.pc.toNat →
    decode op s.fetchData = .error (.illegalOpcode op) →
    ∃ t, step s = .next t ∧ t.trace = s.trace ++ [.illegalOpcode s.pc op] ∧ t.cycles = s.cycles + 1 ∧
      t.pc = advance s.pc 1 ∧ t.runState = .running ∧
      SameRegisters s t ∧ SameFlags s t ∧ SameMemory s t ∧ t.keyInput = s.keyInput

/-- The data word is the word at PC+1, but at PC = 0xFFFF, where it is the TopData draw of the cycle, about which nothing is
known (the spec's decision D12, log 7). -/
def Obligations.DataWordIsNextWordOrDraw : Prop :=
  ∀ s : State,
    (s.pc.toNat < 65535 → s.fetchData = s.mem.readWord (s.pc.toNat + 1)) ∧
    (s.pc.toNat = 65535 → s.fetchData = Config.topData s.cycles)

/-- The PC advance is computed on integers and wraps to 0, not modulo 2^16 (the spec's decision D11, log 6). -/
def Obligations.AdvancePastTopWrapsToZero : Prop :=
  ∀ (s t : State) (i : Instr), ¬ IsJump i → exec i s = .next t → t.cycles = s.cycles + 1 →
    t.pc.toNat = if s.pc.toNat + i.length > 65535 then 0 else s.pc.toNat + i.length

/-- Every enabled cycle answers with a state, and either completes, counting one, or raises a model fault because the
instruction breaks a duty of R152, or is a DGB_INP that holds with no key offered and changes nothing (model faults and the hold
are the spec's decisions D27 and D20, log 8, log 10). -/
def Obligations.EnabledCycleCompletesFaultsOrHolds : Prop :=
  ∀ s : State, s.runState = .running → s.halt = 0 →
    ∃ t, step s = .next t ∧
      (t.cycles = s.cycles + 1 ∨
       (s.keepsDuties = false ∧ ∃ record, t = { s with runState := .faulted record }) ∨
       (s.fetchOpcode = 0xC002 ∧ s.keyInput = [] ∧ t = s))

/-- From Halted no cycle is taken, and from Faulted none, with its record as the reason; HALT ≠ 0 alone is enough (how a step
that is not enabled answers is the model's choice, log 15). -/
def Obligations.NoCycleOnceHaltedOrFaulted : Prop :=
  ∀ s : State,
    (s.runState = .halted → step s = .fault .halted) ∧
    (s.runState = .running → s.halt ≠ 0 → step s = .fault .halted) ∧
    (∀ record, s.runState = .faulted record → step s = .fault (.modelFault record))

/-! ## Operand roles -/

/-- 10_state R16: SEL = 0 makes X active, SEL = 1 makes Y active, and the inactive register is the other one (that 1 selects Y
is the spec's decision D7, log 3). -/
def Obligations.SelectorNamesActiveRegister : Prop :=
  ∀ s : State,
    (s.sel = 0 → s.act = .x ∧ s.inact = .y) ∧ (s.sel = 1 → s.act = .y ∧ s.inact = .x) ∧ s.inact ≠ s.act

/-! ## One statement per instruction: encoding, result, completion and frame -/

/-- 40_cycle R92. -/
def Obligations.NopChangesOnlyPc : Prop :=
  EncodedW1 0x0000 .nop ∧
  ∀ s, ∃ t, exec .nop s = .next t ∧ GoesOn s t 1 ∧
    SameRegisters s t ∧ SameFlags s t ∧ SameMemory s t ∧ SamePorts s t

/-- 41_transfer R96; that data = 0 is a model fault is the spec's decision D13 (log 8). -/
def Obligations.LfmLoadsWordBelowData : Prop :=
  EncodedW2 0x0001 .lfm ∧
  ∀ (s : State) (data : Word), ∃ t, exec (.lfm data) s = .next t ∧
    (data = 0 → FaultsAs s t .addressUnderflow 0x0001 0) ∧
    (data ≠ 0 → WritesActive s t (s.mem.readWord (data.toNat - 1)) ∧ GoesOn s t 2 ∧
      SameFlags s t ∧ SameMemory s t ∧ SamePorts s t)

/-- 41_transfer R97; that data = 0 is a model fault is the spec's decision D13 (log 8). The bytes stored are the two of the
word at the effective address, the function the meaning uses; the canonical memory is log 1. -/
def Obligations.WtmStoresActiveRegister : Prop :=
  EncodedW2 0x0002 .wtm ∧
  ∀ (s : State) (data : Word), ∃ t, exec (.wtm data) s = .next t ∧
    (data = 0 → FaultsAs s t .addressUnderflow 0x0002 0) ∧
    (data ≠ 0 → GoesOn s t 2 ∧ SameRegisters s t ∧ SameFlags s t ∧ SamePorts s t) ∧
    (∀ a, effectiveAddress data = some a →
      a = data.toNat - 1 ∧
      (s.mem.wf → t.mem.readWord a = s.activeValue) ∧
      (∀ b, b ≠ 2 * a → b ≠ 2 * a + 1 → t.mem.readByte b = s.mem.readByte b) ∧
      (∀ b, b ≠ a → t.mem.readWord b = s.mem.readWord b))

/-- 41_transfer R98; that data > 1 is a model fault is the spec's decision D7 (log 3). -/
def Obligations.SraSetsSelector : Prop :=
  EncodedW2 0x0003 .sra ∧
  ∀ (s : State) (data : Word), ∃ t, exec (.sra data) s = .next t ∧
    (data.toNat > 1 → FaultsAs s t .selectorRange 0x0003 data) ∧
    (data.toNat ≤ 1 → t.sel = data ∧ GoesOn s t 2 ∧ SameRegisters s t ∧
      t.eq = s.eq ∧ t.dbz = s.dbz ∧ t.halt = s.halt ∧ SameMemory s t ∧ SamePorts s t)

/-- 41_transfer R99. -/
def Obligations.DwrLoadsImmediate : Prop :=
  EncodedW2 0x0014 .dwr ∧
  ∀ (s : State) (data : Word), ∃ t, exec (.dwr data) s = .next t ∧
    WritesActive s t data ∧ GoesOn s t 2 ∧ SameFlags s t ∧ SameMemory s t ∧ SamePorts s t

/-- 42_alu_arith_compare R101; the reduction mod 2^16 is the spec's decision D2 (log 13). -/
def Obligations.AxyAddsModulo : Prop :=
  EncodedW1 0x0004 .axy ∧
  ∀ s, ∃ t, exec .axy s = .next t ∧ WritesActiveNat s t ((s.x.toNat + s.y.toNat) % 65536) ∧
    GoesOn s t 1 ∧ SameFlags s t ∧ SameMemory s t ∧ SamePorts s t

/-- 42_alu_arith_compare R102: X − Y whichever register is active; X − Y + 65536 when X < Y (the spec's decision D2, log 13). -/
def Obligations.SxySubtractsYFromX : Prop :=
  EncodedW1 0x0005 .sxy ∧
  ∀ s, ∃ t, exec .sxy s = .next t ∧
    WritesActiveNat s t (if s.x.toNat < s.y.toNat then s.x.toNat + 65536 - s.y.toNat else s.x.toNat - s.y.toNat) ∧
    GoesOn s t 1 ∧ SameFlags s t ∧ SameMemory s t ∧ SamePorts s t

/-- 42_alu_arith_compare R103: the low 16 bits of the product (the spec's decision D2, log 13). -/
def Obligations.MxyMultipliesModulo : Prop :=
  EncodedW1 0x0006 .mxy ∧
  ∀ s, ∃ t, exec .mxy s = .next t ∧ WritesActiveNat s t ((s.x.toNat * s.y.toNat) % 65536) ∧
    GoesOn s t 1 ∧ SameFlags s t ∧ SameMemory s t ∧ SamePorts s t

/-- 42_alu_arith_compare R104: unsigned division; by zero the result is 0 and DBZ is set; else DBZ is unchanged (unsigned is
the spec's decision D3, that DBZ is sticky its decision D4; log 13). -/
def Obligations.DxyDividesOrSetsDivideByZero : Prop :=
  EncodedW1 0x0007 .dxy ∧
  ∀ s, ∃ t, exec .dxy s = .next t ∧
    (s.y = 0 → WritesActiveNat s t 0 ∧ t.dbz = 1) ∧
    (s.y ≠ 0 → WritesActiveNat s t (s.x.toNat / s.y.toNat) ∧ t.dbz = s.dbz) ∧
    GoesOn s t 1 ∧ t.eq = s.eq ∧ t.sel = s.sel ∧ t.halt = s.halt ∧ SameMemory s t ∧ SamePorts s t

/-- 42_alu_arith_compare R105; the values 1 and 0 are the spec's decision D5 (log 13). -/
def Obligations.EquTestsEquality : Prop :=
  EncodedW1 0x0008 .equ ∧
  ∀ s, ∃ t, exec .equ s = .next t ∧ (s.x = s.y → t.eq = 1) ∧ (s.x ≠ s.y → t.eq = 0) ∧
    GoesOn s t 1 ∧ SameRegisters s t ∧ t.sel = s.sel ∧ t.dbz = s.dbz ∧ t.halt = s.halt ∧ SameMemory s t ∧ SamePorts s t

/-- 42_alu_arith_compare R106: the strict test, unsigned (the spec's decision D3; the strict reading is its choice C1; log 13). -/
def Obligations.LeqTestsStrictlyLess : Prop :=
  EncodedW1 0x0009 .leq ∧
  ∀ s, ∃ t, exec .leq s = .next t ∧
    (s.x.toNat < s.y.toNat → t.eq = 1) ∧ (s.y.toNat ≤ s.x.toNat → t.eq = 0) ∧
    GoesOn s t 1 ∧ SameRegisters s t ∧ t.sel = s.sel ∧ t.dbz = s.dbz ∧ t.halt = s.halt ∧ SameMemory s t ∧ SamePorts s t

/-- 43_control_transfer R108: JPZ is taken when EQ ≠ 0 if JPZ_TAKEN_ON_EQUAL, when EQ = 0 if not (an OPEN parameter, the
spec's decision D8, log 4); a taken jump to its own address is the spec's decision D10 (log 5). -/
def Obligations.JpzJumpsOnItsPolarity : Prop :=
  EncodedW2 0x000A .jpz ∧
  ∀ (s : State) (data : Word), ∃ t, exec (.jpz data) s = .next t ∧
    t.pc = (if (s.eq ≠ 0 ↔ Config.jpzTakenOnEqual = true) then jumpTarget s data else advance s.pc 2) ∧
    (s.halt = 0 → t.runState = s.runState) ∧ t.cycles = s.cycles + 1 ∧
    SameRegisters s t ∧ SameFlags s t ∧ SameMemory s t ∧ SamePorts s t

/-- 43_control_transfer R109: JNZ is taken when EQ = 0 if JPZ_TAKEN_ON_EQUAL, when EQ ≠ 0 if not (the spec's decisions D8 and
D9, log 4); a taken jump to its own address is its decision D10 (log 5). -/
def Obligations.JnzJumpsOnItsPolarity : Prop :=
  EncodedW2 0x000B .jnz ∧
  ∀ (s : State) (data : Word), ∃ t, exec (.jnz data) s = .next t ∧
    t.pc = (if (s.eq = 0 ↔ Config.jpzTakenOnEqual = true) then jumpTarget s data else advance s.pc 2) ∧
    (s.halt = 0 → t.runState = s.runState) ∧ t.cycles = s.cycles + 1 ∧
    SameRegisters s t ∧ SameFlags s t ∧ SameMemory s t ∧ SamePorts s t

/-- 43_control_transfer R110; a jump to its own address is the spec's decision D10 (log 5). -/
def Obligations.JmpJumpsAlways : Prop :=
  EncodedW2 0x000C .jmp ∧
  ∀ (s : State) (data : Word), ∃ t, exec (.jmp data) s = .next t ∧
    t.pc = jumpTarget s data ∧ (s.halt = 0 → t.runState = s.runState) ∧ t.cycles = s.cycles + 1 ∧
    SameRegisters s t ∧ SameFlags s t ∧ SameMemory s t ∧ SamePorts s t

/-- For every EQ exactly one of JPZ and JNZ is taken (43_control_transfer R109, derived there; the spec's decision D9, log 4),
seen at a target that neither form reaches by falling through. -/
def Obligations.ExactlyOneOfJpzAndJnzIsTaken : Prop :=
  ∀ (s t u : State) (data : Word), data ≠ s.pc → data ≠ advance s.pc 2 →
    exec (.jpz data) s = .next t → exec (.jnz data) s = .next u → (t.pc = data ↔ u.pc ≠ data)

/-- 44_flags_halt R113; that SEL and HALT are among the flags cleared is the spec's decision D22 (log 14). -/
def Obligations.ClrClearsAllFlags : Prop :=
  EncodedW1 0x000D .clr ∧
  ∀ s, ∃ t, exec .clr s = .next t ∧ t.eq = 0 ∧ t.sel = 0 ∧ t.dbz = 0 ∧ t.halt = 0 ∧ GoesOn s t 1 ∧
    SameRegisters s t ∧ SameMemory s t ∧ SamePorts s t

/-- 44_flags_halt R114: HALT is set, the HLT cycle completes with its PC advance, and the run is then Halted (that HALT is
checked after the cycle is the spec's decision D23, log 15). -/
def Obligations.HltHaltsAfterItsCycle : Prop :=
  EncodedW1 0x000E .hlt ∧
  ∀ s, ∃ t, exec .hlt s = .next t ∧ t.halt = 1 ∧ t.runState = .halted ∧ t.pc = advance s.pc 1 ∧
    t.cycles = s.cycles + 1 ∧ SameRegisters s t ∧ t.eq = s.eq ∧ t.sel = s.sel ∧ t.dbz = s.dbz ∧
    SameMemory s t ∧ SamePorts s t

/-- 45_shift_logic R115: bit k goes to bit k + 1, bit 0 is 0, bit 15 is lost (a logical shift is the spec's decision D14,
log 13). -/
def Obligations.BslShiftsLeftByOne : Prop :=
  EncodedW1 0x000F .bsl ∧
  ∀ s, ∃ t, exec .bsl s = .next t ∧ WritesActiveNat s t (((s.getReg s.act).toNat * 2) % 65536) ∧
    (∀ k < 15, (t.getReg s.act).getLsbD (k + 1) = (s.getReg s.act).getLsbD k) ∧ (t.getReg s.act).getLsbD 0 = false ∧
    GoesOn s t 1 ∧ SameFlags s t ∧ SameMemory s t ∧ SamePorts s t

/-- 45_shift_logic R116: bit k + 1 goes to bit k, bit 15 is 0, bit 0 is lost (a logical shift is the spec's decision D14,
log 13). -/
def Obligations.BsrShiftsRightByOne : Prop :=
  EncodedW1 0x0010 .bsr ∧
  ∀ s, ∃ t, exec .bsr s = .next t ∧ WritesActiveNat s t ((s.getReg s.act).toNat / 2) ∧
    (∀ k < 15, (t.getReg s.act).getLsbD k = (s.getReg s.act).getLsbD (k + 1)) ∧ (t.getReg s.act).getLsbD 15 = false ∧
    GoesOn s t 1 ∧ SameFlags s t ∧ SameMemory s t ∧ SamePorts s t

/-- 45_shift_logic R117, bit by bit for bits 15..0. -/
def Obligations.AndCombinesBothRegisters : Prop :=
  EncodedW1 0x0011 .and ∧
  ∀ s, ∃ t, exec .and s = .next t ∧
    (∀ k < 16, (t.getReg s.act).getLsbD k = ((s.getReg s.act).getLsbD k && (s.getReg s.inact).getLsbD k)) ∧
    t.getReg s.inact = s.getReg s.inact ∧ t.getReg s.act = s.x &&& s.y ∧
    GoesOn s t 1 ∧ SameFlags s t ∧ SameMemory s t ∧ SamePorts s t

/-- 45_shift_logic R118, bit by bit. -/
def Obligations.OraCombinesBothRegisters : Prop :=
  EncodedW1 0x0012 .ora ∧
  ∀ s, ∃ t, exec .ora s = .next t ∧
    (∀ k < 16, (t.getReg s.act).getLsbD k = ((s.getReg s.act).getLsbD k || (s.getReg s.inact).getLsbD k)) ∧
    t.getReg s.inact = s.getReg s.inact ∧ t.getReg s.act = s.x ||| s.y ∧
    GoesOn s t 1 ∧ SameFlags s t ∧ SameMemory s t ∧ SamePorts s t

/-- 45_shift_logic R119, bit by bit; done twice with the other register unchanged it restores the original value. -/
def Obligations.XorCombinesBothRegisters : Prop :=
  EncodedW1 0x0013 .xor ∧
  ∀ s, ∃ t u, exec .xor s = .next t ∧ exec .xor t = .next u ∧
    (∀ k < 16, (t.getReg s.act).getLsbD k = ((s.getReg s.act).getLsbD k ^^ (s.getReg s.inact).getLsbD k)) ∧
    t.getReg s.inact = s.getReg s.inact ∧ SameRegisters s u ∧
    GoesOn s t 1 ∧ SameFlags s t ∧ SameMemory s t ∧ SamePorts s t

/-- 46_debug_extension R120: the character at index data is emitted; an index outside the table is a model fault (the table is
OPEN and the fault is the spec's decision D18, log 9; the code is its decision D15, log 12). -/
def Obligations.DbgLgcLogsCharacter : Prop :=
  EncodedW2 0xC000 .dbgLgc ∧
  ∀ (s : State) (data : Word), ∃ t, exec (.dbgLgc data) s = .next t ∧
    (data.toNat ≥ Config.alphabetSize → FaultsAs s t .alphabetRange 0xC000 data) ∧
    (data.toNat < Config.alphabetSize → t.trace = s.trace ++ [.logChar (Config.debugAlphabet data.toNat)] ∧
      GoesOn s t 2 ∧ SameRegisters s t ∧ SameFlags s t ∧ SameMemory s t ∧ t.keyInput = s.keyInput)

/-- 46_debug_extension R121: one MemDump event whose word at every address is memory's word there in this cycle (one event is the
spec's decision D19, its form the model's, log 11; the code is its decision D15, log 12). -/
def Obligations.DgbMemDumpsAllOfMemory : Prop :=
  EncodedW1 0xC001 .dgbMem ∧
  ∀ s, ∃ t dump, exec .dgbMem s = .next t ∧ t.trace = s.trace ++ [.memDump dump] ∧
    dump.readWords 0 65536 = s.mem.readWords 0 65536 ∧
    GoesOn s t 1 ∧ SameRegisters s t ∧ SameFlags s t ∧ SameMemory s t ∧ t.keyInput = s.keyInput

/-- 46_debug_extension R122: with no key offered it holds and nothing changes; once the host supplies v it completes: the active
register holds v and KeyRead(v) is emitted (the hold is the spec's decision D20, the queue the model's, log 10; the code is
its decision D15, log 12). -/
def Obligations.DgbInpHoldsThenReadsKey : Prop :=
  EncodedW1 0xC002 .dgbInp ∧
  (∀ s : State, s.keyInput = [] → exec .dgbInp s = .next s ∧
    ∀ v, ∃ t, exec .dgbInp (s.offerKey v) = .next t ∧ t.getReg s.act = v) ∧
  (∀ (s : State) (v : Word) (rest : List Word), s.keyInput = v :: rest →
    ∃ t, exec .dgbInp s = .next t ∧ WritesActive s t v ∧ t.trace = s.trace ++ [.keyRead v] ∧ t.keyInput = rest ∧
      GoesOn s t 1 ∧ SameFlags s t ∧ SameMemory s t)

/-! ## Rules of the whole machine -/

/-- A model fault changes nothing but the run state, and records where and what: the kind, pc_before, the instruction's opcode and
its data word; it comes only of an operand R152 forbids (model faults are the spec's decision D27, log 8). -/
def Obligations.ModelFaultChangesNothingElse : Prop :=
  ∀ (s t : State) (i : Instr) (record : FaultRecord), s.unfaulted = true → exec i s = .next t →
    t.runState = .faulted record →
    t = { s with runState := .faulted record } ∧ record.pc = s.pc ∧ record.op = i.opcode ∧
    i.dataWord = some record.data ∧ i.wellFormed = false

/-- An instruction raises a model fault exactly when its operand breaks a duty of R152, with the kind R128 gives it (the spec's
decisions D7, D13, D18 and D27, log 3, log 8, log 9). -/
def Obligations.ModelFaultExactlyOnForbiddenOperand : Prop :=
  ∀ (s : State) (i : Instr), s.unfaulted = true →
    ∃ t, exec i s = .next t ∧ (t.unfaulted = true ↔ i.wellFormed = true) ∧
      ∀ record, t.runState = .faulted record →
        match i with
        | .lfm _ | .wtm _ => record.kind = .addressUnderflow
        | .sra _ => record.kind = .selectorRange
        | .dbgLgc _ => record.kind = .alphabetRange
        | _ => False

/-- 10_state R17: SEL is the only switch and only SRA (to its data) and CLR (to 0, so X becomes active) change it; the change
swaps no contents, it exchanges the roles of the two registers. -/
def Obligations.OnlySraAndClrSwitchRegisters : Prop :=
  ∀ (s t : State) (i : Instr), exec i s = .next t → t.sel ≠ s.sel →
    ((∃ data, i = .sra data ∧ t.sel = data) ∨ (i = .clr ∧ t.sel = 0 ∧ t.act = .x)) ∧ SameRegisters s t ∧
    (s.FlagsLegal → t.act = s.inact ∧ t.inact = s.act)

/-- Each flag is written only by the instructions named for it: EQ by EQU, LEQ and CLR, SEL by SRA and CLR, DBZ by DXY and CLR,
HALT by HLT and CLR (10_state R19 to R23; what CLR clears is the spec's decision D22, log 14). -/
def Obligations.FlagsHaveOnlyTheirWriters : Prop :=
  ∀ (s t : State) (i : Instr), exec i s = .next t →
    (t.eq ≠ s.eq → i = .equ ∨ i = .leq ∨ i = .clr) ∧
    (t.sel ≠ s.sel → (∃ data, i = .sra data) ∨ i = .clr) ∧
    (t.dbz ≠ s.dbz → i = .dxy ∨ i = .clr) ∧
    (t.halt ≠ s.halt → i = .hlt ∨ i = .clr)

/-- During execution WTM is the only writer of memory, and it writes one word: after any step at most one word differs, and if one
does the instruction was a WTM and the word is at its effective address (20_memory R39; 40_cycle R90). -/
def Obligations.OnlyWtmWritesMemory : Prop :=
  ∀ s t : State, step s = .next t → t.mem ≠ s.mem →
    ∃ data a, decode s.fetchOpcode s.fetchData = .ok (.wtm data) ∧ effectiveAddress data = some a ∧
      ∀ b, b ≠ a → t.mem.readWord b = s.mem.readWord b

/-- Only the cycle's PC update and the jumps write PC: after any other instruction PC has advanced by the instruction's length, or,
when the cycle did not complete, is unchanged (10_state R18). -/
def Obligations.OnlyJumpsRedirectPc : Prop :=
  ∀ (s t : State) (i : Instr), exec i s = .next t → ¬ IsJump i →
    t.pc = advance s.pc i.length ∨ (t.pc = s.pc ∧ t.cycles = s.cycles)

/-- DBZ is read by no instruction: two states that differ only in DBZ, stepped, answer alike and differ at most in DBZ
(10_state R22). -/
def Obligations.DivideByZeroFlagIsNeverRead : Prop :=
  ∀ (s t : State) (v : Word), step s = .next t →
    ∃ u, step { s with dbz := v } = .next u ∧ { u with dbz := 0 } = { t with dbz := 0 }

/-- The count of cycles is read by no instruction: away from PC = 0xFFFF, where it numbers the TopData draw, two states that differ
only in it answer alike and differ only in it (10_state R35, the spec's decision D35; log 7, log 16). -/
def Obligations.CycleCountIsNeverRead : Prop :=
  ∀ (s t : State) (n : Nat), s.pc.toNat ≠ 65535 → step s = .next t →
    ∃ u, step { s with cycles := n } = .next u ∧ { u with cycles := 0 } = { t with cycles := 0 }

/-- Trace events come in the order of the cycles, at most one to a cycle: a step keeps the trace or appends one event
(46_debug_extension R124). -/
def Obligations.StepEmitsAtMostOneEvent : Prop :=
  ∀ s t : State, step s = .next t → t.trace = s.trace ∨ ∃ e, t.trace = s.trace ++ [e]

/-- A store is seen by every later fetch: after a WTM to the opcode word of the next instruction, the next cycle's opcode is the
value stored, while the WTM itself used the words it had fetched (20_memory R54, R55; the spec's decision D30, log 20; the
canonical memory is log 1). -/
def Obligations.StoreIsSeenByNextFetch : Prop :=
  ∀ s t : State, s.mem.wf → s.pc.toNat + 3 < 65536 → s.runState = .running → s.halt = 0 →
    s.fetchOpcode = 0x0002 → s.fetchData.toNat = s.pc.toNat + 3 → step s = .next t →
    t.fetchOpcode = s.activeValue ∧ t.pc.toNat = s.pc.toNat + 2

/-- What a WTM stored, an LFM with the same data word then loads: from any later state with that memory, whatever its registers
and SEL, into the register active there (20_memory R50; 41_transfer R96, R97; that 0 is excluded is the spec's decision D13,
log 8; the canonical memory is log 1). -/
def Obligations.LoadReturnsWhatWasStored : Prop :=
  ∀ (s t t' u : State) (data : Word), s.mem.wf → data ≠ 0 → exec (.wtm data) s = .next t → t'.mem = t.mem →
    exec (.lfm data) t' = .next u → u.getReg t'.act = s.activeValue

/-- Equal memories are equal data: two canonical memories with the same word at every address are the same list (log 1). -/
def Obligations.CanonicalMemoryIsUnique : Prop :=
  ∀ m n : Memory, m.wf → n.wf → (∀ a < 65536, m.readWord a = n.readWord a) → m = n

/-! ## The invariant -/

/-- The state right after reset has the invariant (memory's canonical form, a part of it, is the model's, log 1). -/
def Obligations.ResetHasInvariant : Prop := State.reset.Inv

/-- Every step keeps the invariant: memory canonical (log 1), every flag 0 or 1 (10_state R24), Halted exactly when HALT ≠ 0 (10_state R28),
and no more events than completed cycles (46_debug_extension R124). -/
def Obligations.StepKeepsInvariant : Prop := ∀ s t : State, s.Inv → step s = .next t → t.Inv

/-- Every state of every run, from the launch of any image, with keys offered by the host at any time, has the invariant; so a
reached state that is not enabled has halted or has raised a model fault (that a program comes by a launch is log 17, that the
host offers any key at any time is log 10, both the model's; memory's canonical form, a part of the invariant, is log 1). -/
def Obligations.ReachableStatesHaveInvariant : Prop :=
  ∀ s : State, Reachable s → s.Inv ∧ (s.enabled = false → s.ended = true ∨ s.unfaulted = false)

/-! ## What follows an instruction -/

/-- A word after a one-word instruction is no operand of it: once the cycle is complete it is the next opcode. So the words
0x0000 0x0005 that a line `NOP %5` emits execute as NOP and then as SXY, in two cycles (30_encoding R75, derived there; the
reduction mod 2^16 is the spec's decision D2, log 13). -/
def Obligations.WordAfterOneWordInstructionIsNextOpcode : Prop :=
  (∀ (s t : State) (i : Instr), s.pc.toNat < 65535 → decode s.fetchOpcode s.fetchData = .ok i → i.length = 1 →
    step s = .next t → t.cycles = s.cycles + 1 → t.fetchOpcode = s.fetchData) ∧
  (∀ s : State, s.runState = .running → s.halt = 0 → s.pc.toNat < 65535 →
    s.fetchOpcode = 0x0000 → s.fetchData = 0x0005 →
    ∃ t u, step s = .next t ∧ step t = .next u ∧
      WritesActiveNat s u (if s.x.toNat < s.y.toNat then s.x.toNat + 65536 - s.y.toNat else s.x.toNat - s.y.toNat) ∧
      u.pc = advance (advance s.pc 1) 1 ∧ u.cycles = s.cycles + 2 ∧ u.runState = .running ∧
      SameFlags s u ∧ SameMemory s u ∧ SamePorts s u)
end

