-- ==== Sys2Proof/Laws/State.lean ====
section
/-! SUPPORT. One lemma per field per update of State, each true by rfl, so that no proof unfolds a record update; then the
register accessors over the updates. -/

namespace Sys2Proof.Machine

variable (s : State)

/-! ### store -/

@[simp] theorem State.store_x (a : Nat) (w : Word) : (s.store a w).x = s.x := rfl
@[simp] theorem State.store_y (a : Nat) (w : Word) : (s.store a w).y = s.y := rfl
@[simp] theorem State.store_pc (a : Nat) (w : Word) : (s.store a w).pc = s.pc := rfl
@[simp] theorem State.store_eq (a : Nat) (w : Word) : (s.store a w).eq = s.eq := rfl
@[simp] theorem State.store_sel (a : Nat) (w : Word) : (s.store a w).sel = s.sel := rfl
@[simp] theorem State.store_dbz (a : Nat) (w : Word) : (s.store a w).dbz = s.dbz := rfl
@[simp] theorem State.store_halt (a : Nat) (w : Word) : (s.store a w).halt = s.halt := rfl
@[simp] theorem State.store_mem (a : Nat) (w : Word) : (s.store a w).mem = s.mem.writeWord a w := rfl
@[simp] theorem State.store_runState (a : Nat) (w : Word) : (s.store a w).runState = s.runState := rfl
@[simp] theorem State.store_trace (a : Nat) (w : Word) : (s.store a w).trace = s.trace := rfl
@[simp] theorem State.store_cycles (a : Nat) (w : Word) : (s.store a w).cycles = s.cycles := rfl
@[simp] theorem State.store_keyInput (a : Nat) (w : Word) : (s.store a w).keyInput = s.keyInput := rfl

/-! ### setEq -/

@[simp] theorem State.setEq_x (v : Word) : (s.setEq v).x = s.x := rfl
@[simp] theorem State.setEq_y (v : Word) : (s.setEq v).y = s.y := rfl
@[simp] theorem State.setEq_pc (v : Word) : (s.setEq v).pc = s.pc := rfl
@[simp] theorem State.setEq_eq (v : Word) : (s.setEq v).eq = v := rfl
@[simp] theorem State.setEq_sel (v : Word) : (s.setEq v).sel = s.sel := rfl
@[simp] theorem State.setEq_dbz (v : Word) : (s.setEq v).dbz = s.dbz := rfl
@[simp] theorem State.setEq_halt (v : Word) : (s.setEq v).halt = s.halt := rfl
@[simp] theorem State.setEq_mem (v : Word) : (s.setEq v).mem = s.mem := rfl
@[simp] theorem State.setEq_runState (v : Word) : (s.setEq v).runState = s.runState := rfl
@[simp] theorem State.setEq_trace (v : Word) : (s.setEq v).trace = s.trace := rfl
@[simp] theorem State.setEq_cycles (v : Word) : (s.setEq v).cycles = s.cycles := rfl
@[simp] theorem State.setEq_keyInput (v : Word) : (s.setEq v).keyInput = s.keyInput := rfl

/-! ### setSel -/

@[simp] theorem State.setSel_x (v : Word) : (s.setSel v).x = s.x := rfl
@[simp] theorem State.setSel_y (v : Word) : (s.setSel v).y = s.y := rfl
@[simp] theorem State.setSel_pc (v : Word) : (s.setSel v).pc = s.pc := rfl
@[simp] theorem State.setSel_eq (v : Word) : (s.setSel v).eq = s.eq := rfl
@[simp] theorem State.setSel_sel (v : Word) : (s.setSel v).sel = v := rfl
@[simp] theorem State.setSel_dbz (v : Word) : (s.setSel v).dbz = s.dbz := rfl
@[simp] theorem State.setSel_halt (v : Word) : (s.setSel v).halt = s.halt := rfl
@[simp] theorem State.setSel_mem (v : Word) : (s.setSel v).mem = s.mem := rfl
@[simp] theorem State.setSel_runState (v : Word) : (s.setSel v).runState = s.runState := rfl
@[simp] theorem State.setSel_trace (v : Word) : (s.setSel v).trace = s.trace := rfl
@[simp] theorem State.setSel_cycles (v : Word) : (s.setSel v).cycles = s.cycles := rfl
@[simp] theorem State.setSel_keyInput (v : Word) : (s.setSel v).keyInput = s.keyInput := rfl

/-! ### setDbz -/

@[simp] theorem State.setDbz_x (v : Word) : (s.setDbz v).x = s.x := rfl
@[simp] theorem State.setDbz_y (v : Word) : (s.setDbz v).y = s.y := rfl
@[simp] theorem State.setDbz_pc (v : Word) : (s.setDbz v).pc = s.pc := rfl
@[simp] theorem State.setDbz_eq (v : Word) : (s.setDbz v).eq = s.eq := rfl
@[simp] theorem State.setDbz_sel (v : Word) : (s.setDbz v).sel = s.sel := rfl
@[simp] theorem State.setDbz_dbz (v : Word) : (s.setDbz v).dbz = v := rfl
@[simp] theorem State.setDbz_halt (v : Word) : (s.setDbz v).halt = s.halt := rfl
@[simp] theorem State.setDbz_mem (v : Word) : (s.setDbz v).mem = s.mem := rfl
@[simp] theorem State.setDbz_runState (v : Word) : (s.setDbz v).runState = s.runState := rfl
@[simp] theorem State.setDbz_trace (v : Word) : (s.setDbz v).trace = s.trace := rfl
@[simp] theorem State.setDbz_cycles (v : Word) : (s.setDbz v).cycles = s.cycles := rfl
@[simp] theorem State.setDbz_keyInput (v : Word) : (s.setDbz v).keyInput = s.keyInput := rfl

/-! ### setHalt -/

@[simp] theorem State.setHalt_x (v : Word) : (s.setHalt v).x = s.x := rfl
@[simp] theorem State.setHalt_y (v : Word) : (s.setHalt v).y = s.y := rfl
@[simp] theorem State.setHalt_pc (v : Word) : (s.setHalt v).pc = s.pc := rfl
@[simp] theorem State.setHalt_eq (v : Word) : (s.setHalt v).eq = s.eq := rfl
@[simp] theorem State.setHalt_sel (v : Word) : (s.setHalt v).sel = s.sel := rfl
@[simp] theorem State.setHalt_dbz (v : Word) : (s.setHalt v).dbz = s.dbz := rfl
@[simp] theorem State.setHalt_halt (v : Word) : (s.setHalt v).halt = v := rfl
@[simp] theorem State.setHalt_mem (v : Word) : (s.setHalt v).mem = s.mem := rfl
@[simp] theorem State.setHalt_runState (v : Word) : (s.setHalt v).runState = s.runState := rfl
@[simp] theorem State.setHalt_trace (v : Word) : (s.setHalt v).trace = s.trace := rfl
@[simp] theorem State.setHalt_cycles (v : Word) : (s.setHalt v).cycles = s.cycles := rfl
@[simp] theorem State.setHalt_keyInput (v : Word) : (s.setHalt v).keyInput = s.keyInput := rfl

/-! ### emit -/

@[simp] theorem State.emit_x (e : Event) : (s.emit e).x = s.x := rfl
@[simp] theorem State.emit_y (e : Event) : (s.emit e).y = s.y := rfl
@[simp] theorem State.emit_pc (e : Event) : (s.emit e).pc = s.pc := rfl
@[simp] theorem State.emit_eq (e : Event) : (s.emit e).eq = s.eq := rfl
@[simp] theorem State.emit_sel (e : Event) : (s.emit e).sel = s.sel := rfl
@[simp] theorem State.emit_dbz (e : Event) : (s.emit e).dbz = s.dbz := rfl
@[simp] theorem State.emit_halt (e : Event) : (s.emit e).halt = s.halt := rfl
@[simp] theorem State.emit_mem (e : Event) : (s.emit e).mem = s.mem := rfl
@[simp] theorem State.emit_runState (e : Event) : (s.emit e).runState = s.runState := rfl
@[simp] theorem State.emit_trace (e : Event) : (s.emit e).trace = s.trace ++ [e] := rfl
@[simp] theorem State.emit_cycles (e : Event) : (s.emit e).cycles = s.cycles := rfl
@[simp] theorem State.emit_keyInput (e : Event) : (s.emit e).keyInput = s.keyInput := rfl

/-! ### dropKey -/

@[simp] theorem State.dropKey_x : (s.dropKey).x = s.x := rfl
@[simp] theorem State.dropKey_y : (s.dropKey).y = s.y := rfl
@[simp] theorem State.dropKey_pc : (s.dropKey).pc = s.pc := rfl
@[simp] theorem State.dropKey_eq : (s.dropKey).eq = s.eq := rfl
@[simp] theorem State.dropKey_sel : (s.dropKey).sel = s.sel := rfl
@[simp] theorem State.dropKey_dbz : (s.dropKey).dbz = s.dbz := rfl
@[simp] theorem State.dropKey_halt : (s.dropKey).halt = s.halt := rfl
@[simp] theorem State.dropKey_mem : (s.dropKey).mem = s.mem := rfl
@[simp] theorem State.dropKey_runState : (s.dropKey).runState = s.runState := rfl
@[simp] theorem State.dropKey_trace : (s.dropKey).trace = s.trace := rfl
@[simp] theorem State.dropKey_cycles : (s.dropKey).cycles = s.cycles := rfl
@[simp] theorem State.dropKey_keyInput : (s.dropKey).keyInput = s.keyInput.tail := rfl

/-! ### offerKey -/

@[simp] theorem State.offerKey_x (v : Word) : (s.offerKey v).x = s.x := rfl
@[simp] theorem State.offerKey_y (v : Word) : (s.offerKey v).y = s.y := rfl
@[simp] theorem State.offerKey_pc (v : Word) : (s.offerKey v).pc = s.pc := rfl
@[simp] theorem State.offerKey_eq (v : Word) : (s.offerKey v).eq = s.eq := rfl
@[simp] theorem State.offerKey_sel (v : Word) : (s.offerKey v).sel = s.sel := rfl
@[simp] theorem State.offerKey_dbz (v : Word) : (s.offerKey v).dbz = s.dbz := rfl
@[simp] theorem State.offerKey_halt (v : Word) : (s.offerKey v).halt = s.halt := rfl
@[simp] theorem State.offerKey_mem (v : Word) : (s.offerKey v).mem = s.mem := rfl
@[simp] theorem State.offerKey_runState (v : Word) : (s.offerKey v).runState = s.runState := rfl
@[simp] theorem State.offerKey_trace (v : Word) : (s.offerKey v).trace = s.trace := rfl
@[simp] theorem State.offerKey_cycles (v : Word) : (s.offerKey v).cycles = s.cycles := rfl
@[simp] theorem State.offerKey_keyInput (v : Word) : (s.offerKey v).keyInput = s.keyInput ++ [v] := rfl

/-! ### clearFlags -/

@[simp] theorem State.clearFlags_x : (s.clearFlags).x = s.x := rfl
@[simp] theorem State.clearFlags_y : (s.clearFlags).y = s.y := rfl
@[simp] theorem State.clearFlags_pc : (s.clearFlags).pc = s.pc := rfl
@[simp] theorem State.clearFlags_eq : (s.clearFlags).eq = 0 := rfl
@[simp] theorem State.clearFlags_sel : (s.clearFlags).sel = 0 := rfl
@[simp] theorem State.clearFlags_dbz : (s.clearFlags).dbz = 0 := rfl
@[simp] theorem State.clearFlags_halt : (s.clearFlags).halt = 0 := rfl
@[simp] theorem State.clearFlags_mem : (s.clearFlags).mem = s.mem := rfl
@[simp] theorem State.clearFlags_runState : (s.clearFlags).runState = s.runState := rfl
@[simp] theorem State.clearFlags_trace : (s.clearFlags).trace = s.trace := rfl
@[simp] theorem State.clearFlags_cycles : (s.clearFlags).cycles = s.cycles := rfl
@[simp] theorem State.clearFlags_keyInput : (s.clearFlags).keyInput = s.keyInput := rfl

/-! ### endCycle -/

@[simp] theorem State.endCycle_x (len : Nat) (jump : Option Word) : (s.endCycle len jump).x = s.x := rfl
@[simp] theorem State.endCycle_y (len : Nat) (jump : Option Word) : (s.endCycle len jump).y = s.y := rfl
@[simp] theorem State.endCycle_pc (len : Nat) (jump : Option Word) : (s.endCycle len jump).pc = nextPc s.pc len jump := rfl
@[simp] theorem State.endCycle_eq (len : Nat) (jump : Option Word) : (s.endCycle len jump).eq = s.eq := rfl
@[simp] theorem State.endCycle_sel (len : Nat) (jump : Option Word) : (s.endCycle len jump).sel = s.sel := rfl
@[simp] theorem State.endCycle_dbz (len : Nat) (jump : Option Word) : (s.endCycle len jump).dbz = s.dbz := rfl
@[simp] theorem State.endCycle_halt (len : Nat) (jump : Option Word) : (s.endCycle len jump).halt = s.halt := rfl
@[simp] theorem State.endCycle_mem (len : Nat) (jump : Option Word) : (s.endCycle len jump).mem = s.mem := rfl
@[simp] theorem State.endCycle_runState (len : Nat) (jump : Option Word) : (s.endCycle len jump).runState = if s.halt = 0 then s.runState else .halted := rfl
@[simp] theorem State.endCycle_trace (len : Nat) (jump : Option Word) : (s.endCycle len jump).trace = s.trace := rfl
@[simp] theorem State.endCycle_cycles (len : Nat) (jump : Option Word) : (s.endCycle len jump).cycles = s.cycles + 1 := rfl
@[simp] theorem State.endCycle_keyInput (len : Nat) (jump : Option Word) : (s.endCycle len jump).keyInput = s.keyInput := rfl

/-! ### raiseModelFault -/

@[simp] theorem State.raiseModelFault_x (kind : FaultKind) (op data : Word) : (s.raiseModelFault kind op data).x = s.x := rfl
@[simp] theorem State.raiseModelFault_y (kind : FaultKind) (op data : Word) : (s.raiseModelFault kind op data).y = s.y := rfl
@[simp] theorem State.raiseModelFault_pc (kind : FaultKind) (op data : Word) : (s.raiseModelFault kind op data).pc = s.pc := rfl
@[simp] theorem State.raiseModelFault_eq (kind : FaultKind) (op data : Word) : (s.raiseModelFault kind op data).eq = s.eq := rfl
@[simp] theorem State.raiseModelFault_sel (kind : FaultKind) (op data : Word) : (s.raiseModelFault kind op data).sel = s.sel := rfl
@[simp] theorem State.raiseModelFault_dbz (kind : FaultKind) (op data : Word) : (s.raiseModelFault kind op data).dbz = s.dbz := rfl
@[simp] theorem State.raiseModelFault_halt (kind : FaultKind) (op data : Word) : (s.raiseModelFault kind op data).halt = s.halt := rfl
@[simp] theorem State.raiseModelFault_mem (kind : FaultKind) (op data : Word) : (s.raiseModelFault kind op data).mem = s.mem := rfl
@[simp] theorem State.raiseModelFault_runState (kind : FaultKind) (op data : Word) : (s.raiseModelFault kind op data).runState = .faulted { kind := kind, pc := s.pc, op := op, data := data } := rfl
@[simp] theorem State.raiseModelFault_trace (kind : FaultKind) (op data : Word) : (s.raiseModelFault kind op data).trace = s.trace := rfl
@[simp] theorem State.raiseModelFault_cycles (kind : FaultKind) (op data : Word) : (s.raiseModelFault kind op data).cycles = s.cycles := rfl
@[simp] theorem State.raiseModelFault_keyInput (kind : FaultKind) (op data : Word) : (s.raiseModelFault kind op data).keyInput = s.keyInput := rfl

/-! ### setReg and setActive: only X or Y changes -/

@[simp] theorem State.setReg_pc (r : Reg) (v : Word) : (s.setReg r v).pc = s.pc := by cases r <;> rfl
@[simp] theorem State.setReg_eq (r : Reg) (v : Word) : (s.setReg r v).eq = s.eq := by cases r <;> rfl
@[simp] theorem State.setReg_sel (r : Reg) (v : Word) : (s.setReg r v).sel = s.sel := by cases r <;> rfl
@[simp] theorem State.setReg_dbz (r : Reg) (v : Word) : (s.setReg r v).dbz = s.dbz := by cases r <;> rfl
@[simp] theorem State.setReg_halt (r : Reg) (v : Word) : (s.setReg r v).halt = s.halt := by cases r <;> rfl
@[simp] theorem State.setReg_mem (r : Reg) (v : Word) : (s.setReg r v).mem = s.mem := by cases r <;> rfl
@[simp] theorem State.setReg_runState (r : Reg) (v : Word) : (s.setReg r v).runState = s.runState := by cases r <;> rfl
@[simp] theorem State.setReg_trace (r : Reg) (v : Word) : (s.setReg r v).trace = s.trace := by cases r <;> rfl
@[simp] theorem State.setReg_cycles (r : Reg) (v : Word) : (s.setReg r v).cycles = s.cycles := by cases r <;> rfl
@[simp] theorem State.setReg_keyInput (r : Reg) (v : Word) : (s.setReg r v).keyInput = s.keyInput := by cases r <;> rfl

@[simp] theorem State.setActive_pc (v : Word) : (s.setActive v).pc = s.pc := by simp [State.setActive]
@[simp] theorem State.setActive_eq (v : Word) : (s.setActive v).eq = s.eq := by simp [State.setActive]
@[simp] theorem State.setActive_sel (v : Word) : (s.setActive v).sel = s.sel := by simp [State.setActive]
@[simp] theorem State.setActive_dbz (v : Word) : (s.setActive v).dbz = s.dbz := by simp [State.setActive]
@[simp] theorem State.setActive_halt (v : Word) : (s.setActive v).halt = s.halt := by simp [State.setActive]
@[simp] theorem State.setActive_mem (v : Word) : (s.setActive v).mem = s.mem := by simp [State.setActive]
@[simp] theorem State.setActive_runState (v : Word) : (s.setActive v).runState = s.runState := by simp [State.setActive]
@[simp] theorem State.setActive_trace (v : Word) : (s.setActive v).trace = s.trace := by simp [State.setActive]
@[simp] theorem State.setActive_cycles (v : Word) : (s.setActive v).cycles = s.cycles := by simp [State.setActive]
@[simp] theorem State.setActive_keyInput (v : Word) : (s.setActive v).keyInput = s.keyInput := by simp [State.setActive]

/-! ### Reading registers -/

@[simp] theorem State.getReg_x : s.getReg .x = s.x := rfl
@[simp] theorem State.getReg_y : s.getReg .y = s.y := rfl

/-- Reading the register just written gives the value written. -/
@[simp] theorem State.getReg_setReg_same (r : Reg) (v : Word) : (s.setReg r v).getReg r = v := by cases r <;> rfl

/-- Writing one register leaves the other alone. -/
theorem State.getReg_setReg_ne (r q : Reg) (h : q ≠ r) (v : Word) : (s.setReg r v).getReg q = s.getReg q := by
  cases r <;> cases q <;> first | rfl | exact absurd rfl h

/-- The active and the inactive register are different registers (10_state R16). -/
theorem State.inact_ne_act : s.inact ≠ s.act := by
  unfold State.inact State.act
  split <;> decide

/-- The roles depend on SEL alone (10_state R16, R17). -/
theorem State.act_congr (t : State) (h : t.sel = s.sel) : t.act = s.act := by simp [State.act, h]

/-- The roles depend on SEL alone (10_state R16, R17). -/
theorem State.inact_congr (t : State) (h : t.sel = s.sel) : t.inact = s.inact := by simp [State.inact, h]

/-- Writing the active register writes the register SEL names. -/
@[simp] theorem State.getReg_act_setActive (v : Word) : (s.setActive v).getReg s.act = v := by simp [State.setActive]

/-- Writing the active register leaves the inactive one alone. -/
@[simp] theorem State.getReg_inact_setActive (v : Word) : (s.setActive v).getReg s.inact = s.getReg s.inact :=
  s.getReg_setReg_ne s.act s.inact s.inact_ne_act v

@[simp] theorem State.getReg_store (a : Nat) (w : Word) (r : Reg) : (s.store a w).getReg r = s.getReg r := by cases r <;> rfl
@[simp] theorem State.getReg_setEq (v : Word) (r : Reg) : (s.setEq v).getReg r = s.getReg r := by cases r <;> rfl
@[simp] theorem State.getReg_setSel (v : Word) (r : Reg) : (s.setSel v).getReg r = s.getReg r := by cases r <;> rfl
@[simp] theorem State.getReg_setDbz (v : Word) (r : Reg) : (s.setDbz v).getReg r = s.getReg r := by cases r <;> rfl
@[simp] theorem State.getReg_setHalt (v : Word) (r : Reg) : (s.setHalt v).getReg r = s.getReg r := by cases r <;> rfl
@[simp] theorem State.getReg_emit (e : Event) (r : Reg) : (s.emit e).getReg r = s.getReg r := by cases r <;> rfl
@[simp] theorem State.getReg_dropKey (r : Reg) : (s.dropKey).getReg r = s.getReg r := by cases r <;> rfl
@[simp] theorem State.getReg_offerKey (v : Word) (r : Reg) : (s.offerKey v).getReg r = s.getReg r := by cases r <;> rfl
@[simp] theorem State.getReg_clearFlags (r : Reg) : (s.clearFlags).getReg r = s.getReg r := by cases r <;> rfl
@[simp] theorem State.getReg_endCycle (len : Nat) (jump : Option Word) (r : Reg) : (s.endCycle len jump).getReg r = s.getReg r := by cases r <;> rfl
@[simp] theorem State.getReg_raiseModelFault (kind : FaultKind) (op data : Word) (r : Reg) : (s.raiseModelFault kind op data).getReg r = s.getReg r := by cases r <;> rfl

/-- What the shared shape of the ALU instructions does: the active register, then the end of a one-word cycle. -/
theorem State.finishAlu_eq (v : Word) : s.finishAlu v = (s.setActive v).endCycle 1 none := rfl

end Sys2Proof.Machine
end

