-- ==== Sys2Proof/Laws/Cycle.lean ====
section
/-! SUPPORT. What the shared operations of a cycle can do: the PC update, the fetch, a model fault, the key queue, and one
inversion lemma for the step. -/

namespace Sys2Proof.Machine

variable (s t : State)

/-! ### The PC update (40_cycle R86, R87) -/

/-- The advance on numbers: the sum, or 0 when the sum is above 0xFFFF. -/
theorem advance_toNat (pc : Word) (len : Nat) :
    (advance pc len).toNat = if pc.toNat + len > 65535 then 0 else pc.toNat + len := by
  unfold advance Config.lastAddress
  split
  · rfl
  · next h =>
    simp only [BitVec.toNat_ofNat]
    omega

/-- With no jump PC advances. -/
@[simp] theorem nextPc_none (pc : Word) (len : Nat) : nextPc pc len none = advance pc len := rfl

/-- A jump to any other address is taken, under both settings of PC_CHANGE_DETECT. -/
theorem nextPc_some_of_ne (pc target : Word) (len : Nat) (h : target ≠ pc) : nextPc pc len (some target) = target := by
  simp [nextPc, h]

/-- A jump to the instruction's own address depends on PC_CHANGE_DETECT. -/
theorem nextPc_some_self (pc : Word) (len : Nat) :
    nextPc pc len (some pc) = if Config.pcChangeDetect = .byValue then advance pc len else pc := by
  unfold nextPc
  cases Config.pcChangeDetect <;> simp

/-- The spec's own wording of the check (R86): compare PC as the handler left it with pc_before, or ask whether a jump
handler wrote it; then advance or keep it. -/
theorem nextPc_eq_check (pcBefore : Word) (len : Nat) (jump : Option Word) :
    nextPc pcBefore len jump =
      if (match Config.pcChangeDetect with
        | .byValue => decide (jump.getD pcBefore ≠ pcBefore)
        | .byWrite => jump.isSome) then jump.getD pcBefore else advance pcBefore len := by
  cases jump with
  | none => cases Config.pcChangeDetect <;> simp [nextPc]
  | some target =>
    by_cases h : target = pcBefore
    · subst h
      unfold nextPc
      generalize Config.pcChangeDetect = setting
      cases setting <;> simp
    · cases Config.pcChangeDetect <;> simp [nextPc, h]

/-! ### The step -/

theorem State.enabled_iff : s.enabled = true ↔ s.runState = .running ∧ s.halt = 0 := by
  simp [State.enabled]

/-- Everything a step can do: in an enabled state it runs the decoded instruction or the illegal-opcode handler, and a state
that is not enabled takes no step. -/
theorem step_cases (h : step s = .next t) :
    s.runState = .running ∧ s.halt = 0 ∧
      ((∃ i, decode s.fetchOpcode s.fetchData = .ok i ∧ exec i s = .next t) ∨
       (∃ op, decode s.fetchOpcode s.fetchData = .error (.illegalOpcode op) ∧ execIllegal op s = .next t)) := by
  unfold step at h
  split at h
  · next he =>
    refine ⟨(s.enabled_iff.1 he).1, (s.enabled_iff.1 he).2, ?_⟩
    split at h
    · next i hi => exact .inl ⟨i, hi, h⟩
    · next op hi => exact .inr ⟨op, hi, h⟩
  · cases h

/-- A state that is not enabled answers with the reason it stopped. -/
theorem step_of_not_enabled (h : s.enabled = false) : step s = .fault s.stopReason := by
  simp [step, h]

/-! ### The launch -/

/-- Everything a launch can answer with a state: the reset state over the loaded memory. -/
theorem launch_cases (image : List Byte) (h : launch image = .next s) :
    romMagic.length ≤ image.length ∧ image.take romMagic.length = romMagic ∧
      (image.drop romMagic.length).length % 2 = 0 ∧
      s = { State.reset with mem := loadedMemory (bytesToWords (image.drop romMagic.length)) } := by
  unfold launch at h
  split at h
  · cases h
  · next h1 =>
    split at h
    · cases h
    · next h2 =>
      split at h
      · cases h
      · next h3 =>
        cases h
        exact ⟨Nat.le_of_not_lt h1, not_not.1 h2, not_not.1 h3, rfl⟩

end Sys2Proof.Machine
end

