-- ==== Sys2Proof/Laws/Operands.lean ====
section
/-! SUPPORT. One lemma per operand form, ALU result and flag: its value on numbers, and when an operand has no meaning. -/

namespace Sys2Proof.Machine

/-- data = 0 names no address (R96, R97). -/
theorem effectiveAddress_eq_none (data : Word) : effectiveAddress data = none ↔ addressOperandOk data = false := by
  simp [effectiveAddress, addressOperandOk]

/-- Any other data names the address one below it, which is a word of memory other than the last (R96). -/
theorem effectiveAddress_eq_some (data : Word) (a : Nat) :
    effectiveAddress data = some a ↔ data.toNat = a + 1 := by
  unfold effectiveAddress
  split
  · next h => subst h; simp
  · next h =>
    have : data.toNat ≠ 0 := fun h0 => h (BitVec.eq_of_toNat_eq (by simpa using h0))
    simp only [Option.some.injEq]
    omega

/-- The address an LFM or WTM names is inside memory. -/
theorem effectiveAddress_lt (data : Word) (a : Nat) (h : effectiveAddress data = some a) : a < Config.memWords := by
  have h1 := (effectiveAddress_eq_some data a).1 h
  have h2 := data.isLt
  simp only [Config.memWords]
  omega

/-- data > 1 selects nothing (R98). -/
theorem selectorOperand_eq_none (data : Word) : selectorOperand data = none ↔ selectorOperandOk data = false := by
  simp [selectorOperand, selectorOperandOk]

/-- 0 and 1 are the selector's new values (R98). -/
theorem selectorOperand_eq_some (data v : Word) : selectorOperand data = some v ↔ data.toNat ≤ 1 ∧ v = data := by
  unfold selectorOperand
  split
  · simp; omega
  · simp only [Option.some.injEq]
    constructor
    · rintro rfl; exact ⟨by omega, rfl⟩
    · rintro ⟨-, rfl⟩; rfl

/-- An index outside the alphabet names no character (R120). -/
theorem alphabetOperand_eq_none (data : Word) : alphabetOperand data = none ↔ alphabetOperandOk data = false := by
  simp [alphabetOperand, alphabetOperandOk]

/-- An index inside the alphabet names the character there (R120). -/
theorem alphabetOperand_eq_some (data : Word) (c : Char) :
    alphabetOperand data = some c ↔ data.toNat < Config.alphabetSize ∧ c = Config.debugAlphabet data.toNat := by
  unfold alphabetOperand
  split
  · simp; omega
  · simp only [Option.some.injEq]
    constructor
    · rintro rfl; exact ⟨by omega, rfl⟩
    · rintro ⟨-, rfl⟩; rfl

/-- ALPHABET_SIZE is at least 1 and at most 65535 (log 9). -/
theorem alphabetSize_bounds : 1 ≤ Config.alphabetSize ∧ Config.alphabetSize ≤ 65535 := by
  have := Config.alphabetSizeBelow.isLt
  unfold Config.alphabetSize
  omega

@[simp] theorem addResult_toNat (a b : Word) : (addResult a b).toNat = (a.toNat + b.toNat) % 65536 := by
  simp [addResult]

@[simp] theorem subResult_toNat (a b : Word) : (subResult a b).toNat = (a.toNat + 65536 - b.toNat) % 65536 := by
  have ha := a.isLt
  have hb := b.isLt
  simp only [subResult, BitVec.toNat_ofInt]
  omega

@[simp] theorem mulResult_toNat (a b : Word) : (mulResult a b).toNat = (a.toNat * b.toNat) % 65536 := by
  simp [mulResult]

@[simp] theorem divResult_toNat (a b : Word) : (divResult a b).toNat = a.toNat / b.toNat := by
  unfold divResult
  split
  · next h => subst h; simp
  · exact (BitVec.toNat_ofNat _ _).trans (Nat.mod_eq_of_lt (lt_of_le_of_lt (Nat.div_le_self _ _) a.isLt))

@[simp] theorem shiftLeftResult_toNat (a : Word) : (shiftLeftResult a).toNat = (a.toNat * 2) % 65536 := by
  simp [shiftLeftResult]

@[simp] theorem shiftRightResult_toNat (a : Word) : (shiftRightResult a).toNat = a.toNat / 2 := by
  have := a.isLt
  simp only [shiftRightResult, BitVec.toNat_ofNat]
  omega

/-- A flag word is 0 or 1 (10_state R24). -/
theorem flagWord_le (holds : Bool) : (flagWord holds).toNat ≤ 1 := by cases holds <;> simp [flagWord]

/-- DBZ stays 0 or 1 (10_state R24). -/
theorem divideByZeroFlag_le (b old : Word) (h : old.toNat ≤ 1) : (divideByZeroFlag b old).toNat ≤ 1 := by
  unfold divideByZeroFlag
  split <;> simp_all

/-- JPZ's condition as one equivalence: EQ is set exactly when the polarity is the taken-on-equal one (R108). -/
theorem jpzTaken_iff (s : State) : jpzTaken s = true ↔ (s.eq ≠ 0 ↔ Config.jpzTakenOnEqual = true) := by
  unfold jpzTaken
  generalize Config.jpzTakenOnEqual = polarity
  cases polarity <;> simp

/-- JNZ's condition is the opposite one (R109). -/
theorem jnzTaken_iff (s : State) : jnzTaken s = true ↔ (s.eq = 0 ↔ Config.jpzTakenOnEqual = true) := by
  unfold jnzTaken
  generalize Config.jpzTakenOnEqual = polarity
  cases polarity <;> simp

end Sys2Proof.Machine
end

