-- ==== Sys2Proof/Laws/Exec.lean ====
section
/-! SUPPORT. What each meaning that branches can do, one lemma per branch, and what any instruction can do: complete its
cycle, raise a model fault, or hold. -/

namespace Sys2Proof.Machine

variable (s t : State) (data : Word)

/-! ### The branching meanings, one lemma per branch -/

theorem exec_lfm_of_none (h : effectiveAddress data = none) :
    exec (.lfm data) s = .next (s.raiseModelFault .addressUnderflow (Instr.lfm data).opcode data) := by
  simp [exec, execLfm, h]

theorem exec_lfm_of_some (a : Nat) (h : effectiveAddress data = some a) :
    exec (.lfm data) s = .next ((s.setActive (s.mem.readWord a)).endCycle 2 none) := by
  simp [exec, execLfm, h]

theorem exec_wtm_of_none (h : effectiveAddress data = none) :
    exec (.wtm data) s = .next (s.raiseModelFault .addressUnderflow (Instr.wtm data).opcode data) := by
  simp [exec, execWtm, h]

theorem exec_wtm_of_some (a : Nat) (h : effectiveAddress data = some a) :
    exec (.wtm data) s = .next ((s.store a s.activeValue).endCycle 2 none) := by
  simp [exec, execWtm, h]

theorem exec_sra_of_none (h : selectorOperand data = none) :
    exec (.sra data) s = .next (s.raiseModelFault .selectorRange (Instr.sra data).opcode data) := by
  simp [exec, execSra, h]

theorem exec_sra_of_some (v : Word) (h : selectorOperand data = some v) :
    exec (.sra data) s = .next ((s.setSel v).endCycle 2 none) := by
  simp [exec, execSra, h]

theorem exec_dbgLgc_of_none (h : alphabetOperand data = none) :
    exec (.dbgLgc data) s = .next (s.raiseModelFault .alphabetRange (Instr.dbgLgc data).opcode data) := by
  simp [exec, execDbgLgc, h]

theorem exec_dbgLgc_of_some (c : Char) (h : alphabetOperand data = some c) :
    exec (.dbgLgc data) s = .next ((s.emit (.logChar c)).endCycle 2 none) := by
  simp [exec, execDbgLgc, h]

theorem exec_dgbInp_of_nil (h : s.keyInput = []) : exec .dgbInp s = .next s := by
  simp [exec, execDgbInp, h]

theorem exec_dgbInp_of_cons (v : Word) (rest : List Word) (h : s.keyInput = v :: rest) :
    exec .dgbInp s = .next (((s.dropKey.setActive v).emit (.keyRead v)).endCycle 1 none) := by
  simp [exec, execDgbInp, h]

/-! ### What any instruction can do -/

/-- The cycle completes: the handler made u of s without touching PC, the count or the run state, and the end of the cycle made
t of u; jump is what a jump handler wrote to PC. -/
def Completes (i : Instr) (s t : State) : Prop :=
  ∃ (u : State) (jump : Option Word), t = u.endCycle i.length jump ∧ u.pc = s.pc ∧ u.cycles = s.cycles ∧
    u.runState = s.runState ∧ (jump = none ∨ ∃ target, jump = some target ∧
      (i = .jpz target ∨ i = .jnz target ∨ i = .jmp target))

/-- The cycle ends in a model fault, which only an operand R152 forbids raises. -/
def Faults (i : Instr) (s t : State) : Prop :=
  ∃ kind data, t = s.raiseModelFault kind i.opcode data ∧ i.dataWord = some data ∧ i.wellFormed = false

/-- The instruction is DGB_INP and holds. -/
def Holds (i : Instr) (s t : State) : Prop := i = .dgbInp ∧ s.keyInput = [] ∧ t = s

/-- A handler that writes no PC completes. -/
theorem completes_of_none (i : Instr) (u : State) (len : Nat) (h : .next (u.endCycle len none) = exec i s)
    (ht : exec i s = .next t) (hl : len = i.length) (hp : u.pc = s.pc) (hc : u.cycles = s.cycles)
    (hr : u.runState = s.runState) : Completes i s t :=
  ⟨u, none, hl ▸ (Host.Outcome.next.inj (h.trans ht)).symm, hp, hc, hr, .inl rfl⟩

/-- A jump handler completes, whether it wrote PC or not. -/
theorem completes_of_jump (i : Instr) (target : Word) (taken : Bool) (hl : i.length = 2)
    (hi : i = .jpz target ∨ i = .jnz target ∨ i = .jmp target)
    (h : .next (s.endCycle 2 (if taken then some target else none)) = exec i s) (ht : exec i s = .next t) :
    Completes i s t := by
  refine ⟨s, _, hl ▸ (Host.Outcome.next.inj (h.trans ht)).symm, rfl, rfl, rfl, ?_⟩
  cases taken
  · exact .inl rfl
  · exact .inr ⟨target, rfl, hi⟩

/-- A model fault on an operand R152 forbids. -/
theorem faults_of (i : Instr) (kind : FaultKind) (data : Word) (h : .next (s.raiseModelFault kind i.opcode data) = exec i s)
    (ht : exec i s = .next t) (hd : i.dataWord = some data) (hw : i.wellFormed = false) : Faults i s t :=
  ⟨kind, data, (Host.Outcome.next.inj (h.trans ht)).symm, hd, hw⟩

/-- Everything an instruction can do: it completes its cycle, raises a model fault, or holds. -/
theorem exec_cases (i : Instr) (h : exec i s = .next t) : Completes i s t ∨ Faults i s t ∨ Holds i s t := by
  cases i with
  | lfm data =>
    cases he : effectiveAddress data with
    | none =>
      exact .inr (.inl (faults_of s t _ _ data (exec_lfm_of_none s data he).symm h rfl ((effectiveAddress_eq_none data).1 he)))
    | some a =>
      exact .inl (completes_of_none s t _ _ _ (exec_lfm_of_some s data a he).symm h rfl (by simp) (by simp) (by simp))
  | wtm data =>
    cases he : effectiveAddress data with
    | none =>
      exact .inr (.inl (faults_of s t _ _ data (exec_wtm_of_none s data he).symm h rfl ((effectiveAddress_eq_none data).1 he)))
    | some a =>
      exact .inl (completes_of_none s t _ _ _ (exec_wtm_of_some s data a he).symm h rfl (rfl) (rfl) (rfl))
  | sra data =>
    cases he : selectorOperand data with
    | none =>
      exact .inr (.inl (faults_of s t _ _ data (exec_sra_of_none s data he).symm h rfl ((selectorOperand_eq_none data).1 he)))
    | some v =>
      exact .inl (completes_of_none s t _ _ _ (exec_sra_of_some s data v he).symm h rfl (rfl) (rfl) (rfl))
  | dbgLgc data =>
    cases he : alphabetOperand data with
    | none =>
      exact .inr (.inl (faults_of s t _ _ data (exec_dbgLgc_of_none s data he).symm h rfl ((alphabetOperand_eq_none data).1 he)))
    | some c =>
      exact .inl (completes_of_none s t _ _ _ (exec_dbgLgc_of_some s data c he).symm h rfl (rfl) (rfl) (rfl))
  | dgbInp =>
    cases he : s.keyInput with
    | nil => exact .inr (.inr ⟨rfl, he, Host.Outcome.next.inj (h.symm.trans (exec_dgbInp_of_nil s he))⟩)
    | cons v rest =>
      exact .inl (completes_of_none s t _ _ _ (exec_dgbInp_of_cons s v rest he).symm h rfl (by simp) (by simp) (by simp))
  | jpz data => exact .inl (completes_of_jump s t _ data (jpzTaken s) rfl (.inl rfl) rfl h)
  | jnz data => exact .inl (completes_of_jump s t _ data (jnzTaken s) rfl (.inr (.inl rfl)) rfl h)
  | jmp data => exact .inl (completes_of_jump s t _ data true rfl (.inr (.inr rfl)) rfl h)
  | nop | clr | hlt | equ | leq | dgbMem =>
    exact .inl (completes_of_none s t _ _ 1 rfl h rfl rfl rfl rfl)
  | axy | sxy | mxy | dxy | bsl | bsr | and | ora | xor =>
    exact .inl (completes_of_none s t _ _ 1 rfl h rfl (by simp) (by simp) (by simp))
  | dwr data => exact .inl (completes_of_none s t _ _ 2 rfl h rfl (by simp) (by simp) (by simp))

end Sys2Proof.Machine
end

