-- ==== Sys2Proof/Laws/Memory.lean ====
section
/-! SUPPORT. The laws of memory: every store keeps the canonical form, a read after a store to the same place gives the
value stored, and a store leaves every other place alone (20_memory R44, R50). -/

namespace Sys2Proof.Machine

variable (m : Memory)

@[simp] theorem Memory.readByte_nil (a : Nat) : Memory.readByte [] a = Memory.unlisted := rfl

@[simp] theorem Memory.readByte_cons (k : Nat) (v : Byte) (a : Nat) :
    Memory.readByte ((k, v) :: m) a = if k = a then v else m.readByte a := rfl

/-! ### The canonical form -/

/-- The empty list is canonical: every word reads 0. -/
theorem Memory.wf_nil : Memory.wf [] := ⟨.nil, by simp⟩

/-- The first cell is below the rest, listed for a reason, and inside memory; the rest is canonical. -/
theorem Memory.wf_cons (k : Nat) (v : Byte) :
    Memory.wf ((k, v) :: m) ↔
      (∀ c ∈ m, k < c.1) ∧ v ≠ Memory.unlisted ∧ k < 2 * Config.memWords ∧ Memory.wf m := by
  simp only [Memory.wf, List.pairwise_cons, List.mem_cons, forall_eq_or_imp]
  tauto

/-- A byte that no cell lists reads as an unlisted byte. -/
theorem Memory.readByte_of_forall_ne (a : Nat) (h : ∀ c ∈ m, c.1 ≠ a) : m.readByte a = Memory.unlisted := by
  induction m with
  | nil => rfl
  | cons c m ih =>
    obtain ⟨k, v⟩ := c
    simp only [List.mem_cons, forall_eq_or_imp] at h
    rw [Memory.readByte_cons, if_neg h.1, ih h.2]

/-- A cell in front of a memory whose cells are all at other addresses. -/
theorem Memory.readByte_consCell (a b : Nat) (v : Byte) (h : ∀ c ∈ m, c.1 ≠ a) :
    (Memory.cons a v m).readByte b = if b = a then v else m.readByte b := by
  unfold Memory.cons
  split
  · split
    · next hv hb => subst hb; rw [m.readByte_of_forall_ne b h, hv]
    · rfl
  · simp [eq_comm]

/-- The cells of a store's result are the old ones, or the one stored. -/
theorem Memory.mem_writeByte (a : Nat) (b : Byte) (c : Host.Cell) (h : c ∈ m.writeByte a b) :
    c ∈ m ∨ (c = (a, b) ∧ b ≠ Memory.unlisted) := by
  induction m with
  | nil =>
    simp only [Memory.writeByte, Memory.cons] at h
    split at h <;> simp_all
  | cons d m ih =>
    obtain ⟨k, v⟩ := d
    simp only [Memory.writeByte, Memory.cons] at h
    split at h
    · split at h
      · exact .inl h
      · next hb => rcases List.mem_cons.1 h with h | h <;> [exact .inr ⟨h, hb⟩; exact .inl h]
    · split at h
      · split at h
        · exact .inl (List.mem_cons_of_mem _ h)
        · next hb => rcases List.mem_cons.1 h with h | h <;> [exact .inr ⟨h, hb⟩; exact .inl (List.mem_cons_of_mem _ h)]
      · simp only [List.mem_cons] at h ⊢
        rcases h with h | h
        · exact .inl (.inl h)
        · rcases ih h with h | h
          · exact .inl (.inr h)
          · exact .inr h

/-- A store inside memory keeps the canonical form. -/
theorem Memory.wf_writeByte (a : Nat) (b : Byte) (ha : a < 2 * Config.memWords) (h : m.wf) : (m.writeByte a b).wf := by
  induction m with
  | nil =>
    unfold Memory.writeByte Memory.cons
    split
    · exact Memory.wf_nil
    · next hb => exact (Memory.wf_cons [] a b).2 ⟨by simp, hb, ha, Memory.wf_nil⟩
  | cons c m ih =>
    obtain ⟨k, v⟩ := c
    have hkv := (Memory.wf_cons m k v).1 h
    obtain ⟨hk, hv, hks, hm⟩ := hkv
    unfold Memory.writeByte Memory.cons
    split
    · next hak =>
      split
      · exact h
      · next hb =>
        refine (Memory.wf_cons _ a b).2 ⟨?_, hb, ha, h⟩
        simp only [List.mem_cons, forall_eq_or_imp]
        exact ⟨hak, fun c hc => lt_trans hak (hk c hc)⟩
    · split
      · next hak =>
        split
        · exact hm
        · next hb => exact (Memory.wf_cons m a b).2 ⟨fun c hc => hak ▸ hk c hc, hb, ha, hm⟩
      · next h1 h2 =>
        refine (Memory.wf_cons _ k v).2 ⟨fun c hc => ?_, hv, hks, ih hm⟩
        rcases Memory.mem_writeByte m a b c hc with hc | ⟨hc, -⟩
        · exact hk c hc
        · subst hc; show k < a; omega

/-! ### Reading after a store -/

/-- A byte store changes the byte at its address and no other. -/
theorem Memory.readByte_writeByte (a : Nat) (b : Byte) (h : m.wf) (c : Nat) :
    (m.writeByte a b).readByte c = if c = a then b else m.readByte c := by
  induction m with
  | nil => exact Memory.readByte_consCell [] a c b (by simp)
  | cons d m ih =>
    obtain ⟨k, v⟩ := d
    obtain ⟨hk, -, -, hm⟩ := (Memory.wf_cons m k v).1 h
    unfold Memory.writeByte
    split
    · next hak =>
      refine Memory.readByte_consCell _ a c b ?_
      simp only [List.mem_cons, forall_eq_or_imp]
      exact ⟨by omega, fun d hd => by have := hk d hd; omega⟩
    · split
      · next hak =>
        rw [Memory.readByte_consCell m a c b (fun d hd => by have := hk d hd; omega), Memory.readByte_cons]
        split <;> [rfl; rw [if_neg (by omega)]]
      · next h1 h2 =>
        rw [Memory.readByte_cons, Memory.readByte_cons, ih hm]
        split
        · rw [if_neg (by omega)]
        · rfl

/-- A byte store leaves every other byte alone, in any memory. -/
theorem Memory.readByte_writeByte_ne (a : Nat) (b : Byte) (c : Nat) (hc : c ≠ a) :
    (m.writeByte a b).readByte c = m.readByte c := by
  have key : ∀ l : Memory, (Memory.cons a b l).readByte c = l.readByte c := by
    intro l
    unfold Memory.cons
    split
    · rfl
    · rw [Memory.readByte_cons, if_neg (by omega)]
  induction m with
  | nil => exact key []
  | cons d m ih =>
    obtain ⟨k, v⟩ := d
    unfold Memory.writeByte
    split
    · exact key _
    · split
      · rw [key, Memory.readByte_cons, if_neg (by omega)]
      · rw [Memory.readByte_cons, Memory.readByte_cons, ih]

/-! ### Words -/

/-- A word's two bytes make it up (20_memory R40). -/
@[simp] theorem Word.ofBytes_high_low (w : Word) : Word.ofBytes w.highByte w.lowByte = w := by
  show (w.extractLsb' 8 8 ++ w.extractLsb' 0 8 : BitVec 16) = w
  ext i hi
  simp only [BitVec.getElem_append, BitVec.getElem_extractLsb']
  split
  · simp [BitVec.getLsbD_eq_getElem hi]
  · rw [show 8 + (i - 8) = i by omega, BitVec.getLsbD_eq_getElem hi]

/-- The first byte of a word made of two is its high byte (30_encoding R70). -/
@[simp] theorem Word.highByte_ofBytes (high low : Byte) : (Word.ofBytes high low).highByte = high := by
  ext i hi
  rw [BitVec.getElem_extractLsb', ← BitVec.getLsbD_eq_getElem hi]
  exact (BitVec.getLsbD_append (x := high) (y := low)).trans (by simp)

/-- The second byte of a word made of two is its low byte (30_encoding R70). -/
@[simp] theorem Word.lowByte_ofBytes (high low : Byte) : (Word.ofBytes high low).lowByte = low := by
  ext i hi
  rw [BitVec.getElem_extractLsb', ← BitVec.getLsbD_eq_getElem hi]
  exact (BitVec.getLsbD_append (x := high) (y := low)).trans (by simp [hi])

/-- A word store inside memory keeps the canonical form. -/
theorem Memory.wf_writeWord (a : Nat) (w : Word) (ha : a < Config.memWords) (h : m.wf) : (m.writeWord a w).wf := by
  unfold Memory.writeWord
  exact Memory.wf_writeByte _ _ _ (by omega) (m.wf_writeByte _ _ (by omega) h)

/-- A word store leaves every byte but its two alone, in any memory. -/
theorem Memory.readByte_writeWord_ne (a : Nat) (w : Word) (c : Nat) (h1 : c ≠ 2 * a) (h2 : c ≠ 2 * a + 1) :
    (m.writeWord a w).readByte c = m.readByte c := by
  unfold Memory.writeWord
  rw [Memory.readByte_writeByte_ne _ _ _ _ h2, Memory.readByte_writeByte_ne _ _ _ _ h1]

/-- A word store leaves every other word alone, in any memory. -/
theorem Memory.readWord_writeWord_ne (a : Nat) (w : Word) (b : Nat) (h : b ≠ a) :
    (m.writeWord a w).readWord b = m.readWord b := by
  unfold Memory.readWord
  rw [m.readByte_writeWord_ne a w _ (by omega) (by omega), m.readByte_writeWord_ne a w _ (by omega) (by omega)]

/-- A word read where a word was just stored gives that word. -/
theorem Memory.readWord_writeWord_same (a : Nat) (w : Word) (ha : a < Config.memWords) (h : m.wf) :
    (m.writeWord a w).readWord a = w := by
  have h1 := m.wf_writeByte (2 * a) w.highByte (by omega) h
  unfold Memory.readWord Memory.writeWord
  rw [Memory.readByte_writeByte _ _ _ h1, Memory.readByte_writeByte _ _ _ h1, if_neg (by omega), if_pos rfl,
    m.readByte_writeByte _ _ h, if_pos rfl, Word.ofBytes_high_low]

/-- Storing a list of words inside memory keeps the canonical form. -/
theorem Memory.wf_writeWords (ws : List Word) (a : Nat) (ha : a + ws.length ≤ Config.memWords) (h : m.wf) :
    (m.writeWords a ws).wf := by
  induction ws generalizing m a with
  | nil => exact h
  | cons w ws ih =>
    simp only [List.length_cons] at ha
    exact ih _ _ (by omega) (m.wf_writeWord a w (by omega) h)

/-- Storing a list of words changes the words it covers and no other. -/
theorem Memory.readWord_writeWords (ws : List Word) (a : Nat) (ha : a + ws.length ≤ Config.memWords) (h : m.wf) (b : Nat) :
    (m.writeWords a ws).readWord b = if a ≤ b then (ws[b - a]?).getD (m.readWord b) else m.readWord b := by
  induction ws generalizing m a with
  | nil => simp [Memory.writeWords]
  | cons w ws ih =>
    simp only [List.length_cons] at ha
    rw [Memory.writeWords, ih _ _ (by omega) (m.wf_writeWord a w (by omega) h)]
    by_cases hb : b = a
    · subst hb
      rw [if_neg (by omega), if_pos le_rfl, m.readWord_writeWord_same b w (by omega) h]
      simp
    · rw [m.readWord_writeWord_ne a w b hb]
      by_cases hab : a ≤ b
      · rw [if_pos (by omega), if_pos hab, show b - a = (b - (a + 1)) + 1 by omega, List.getElem?_cons_succ]
      · rw [if_neg (by omega), if_neg hab]

/-- The memory a launch leaves is canonical. -/
theorem Memory.wf_loadedMemory (words : List Word) : (loadedMemory words).wf := by
  refine Memory.wf_writeWords [] _ 0 ?_ Memory.wf_nil
  have : (words.take Config.romLoadLimit).length ≤ Config.romLoadLimit := by simp
  simp only [Config.romLoadLimit, Config.memWords] at this ⊢
  omega

/-- Memory right after reset is canonical. -/
theorem State.reset_mem_wf : State.reset.mem.wf := Memory.wf_nil

end Sys2Proof.Machine
end

