-- ==== Sys2Proof/Laws/PerInstr.lean ====
section
/-! SUPPORT. One fact of the syntax per constructor: the instruction's words are as many as R62 says, one or two, and the
first is the code of a row of the dispatch table that gives this very instruction for its data word. -/

namespace Sys2Proof.Laws.Words

/-- The instruction stands in the dispatch table under its own opcode, and its words are the opcode and its data word. -/
def Statement (i : Instr) : Prop :=
  (∃ row ∈ dispatchTable, row.code = i.opcode ∧ ∀ data, i.dataWord.getD data = data → row.instruction data = i) ∧
  (encode i).length = i.length ∧ (i.length = 1 ∨ i.length = 2)

/-- A W1 row of the table gives the statement. -/
theorem of_w1 (name : String) (i : Instr) (hrow : .w1 i.opcode name i ∈ dispatchTable) (hd : i.dataWord = none) :
    Statement i := by
  refine ⟨⟨_, hrow, rfl, fun _ _ => rfl⟩, ?_, ?_⟩ <;> simp [encode, Instr.length, hd]

/-- A W2 row of the table gives the statement. -/
theorem of_w2 (name : String) (f : Word → Instr) (data : Word) (hrow : .w2 (f data).opcode name f ∈ dispatchTable)
    (hd : (f data).dataWord = some data) : Statement (f data) := by
  refine ⟨⟨_, hrow, rfl, fun d h => ?_⟩, ?_, ?_⟩
  · rw [hd] at h
    exact congrArg f h.symm
  all_goals simp [encode, Instr.length, hd]

theorem nop : Statement .nop := of_w1 "NOP" _ (by simp [dispatchTable, cpuRows, debugRows, Instr.opcode]) rfl
theorem lfm (data : Word) : Statement (.lfm data) :=
  of_w2 "LFM" .lfm data (by simp [dispatchTable, cpuRows, debugRows, Instr.opcode]) rfl
theorem wtm (data : Word) : Statement (.wtm data) :=
  of_w2 "WTM" .wtm data (by simp [dispatchTable, cpuRows, debugRows, Instr.opcode]) rfl
theorem sra (data : Word) : Statement (.sra data) :=
  of_w2 "SRA" .sra data (by simp [dispatchTable, cpuRows, debugRows, Instr.opcode]) rfl
theorem axy : Statement .axy := of_w1 "AXY" _ (by simp [dispatchTable, cpuRows, debugRows, Instr.opcode]) rfl
theorem sxy : Statement .sxy := of_w1 "SXY" _ (by simp [dispatchTable, cpuRows, debugRows, Instr.opcode]) rfl
theorem mxy : Statement .mxy := of_w1 "MXY" _ (by simp [dispatchTable, cpuRows, debugRows, Instr.opcode]) rfl
theorem dxy : Statement .dxy := of_w1 "DXY" _ (by simp [dispatchTable, cpuRows, debugRows, Instr.opcode]) rfl
theorem equ : Statement .equ := of_w1 "EQU" _ (by simp [dispatchTable, cpuRows, debugRows, Instr.opcode]) rfl
theorem leq : Statement .leq := of_w1 "LEQ" _ (by simp [dispatchTable, cpuRows, debugRows, Instr.opcode]) rfl
theorem jpz (data : Word) : Statement (.jpz data) :=
  of_w2 "JPZ" .jpz data (by simp [dispatchTable, cpuRows, debugRows, Instr.opcode]) rfl
theorem jnz (data : Word) : Statement (.jnz data) :=
  of_w2 "JNZ" .jnz data (by simp [dispatchTable, cpuRows, debugRows, Instr.opcode]) rfl
theorem jmp (data : Word) : Statement (.jmp data) :=
  of_w2 "JMP" .jmp data (by simp [dispatchTable, cpuRows, debugRows, Instr.opcode]) rfl
theorem clr : Statement .clr := of_w1 "CLR" _ (by simp [dispatchTable, cpuRows, debugRows, Instr.opcode]) rfl
theorem hlt : Statement .hlt := of_w1 "HLT" _ (by simp [dispatchTable, cpuRows, debugRows, Instr.opcode]) rfl
theorem bsl : Statement .bsl := of_w1 "BSL" _ (by simp [dispatchTable, cpuRows, debugRows, Instr.opcode]) rfl
theorem bsr : Statement .bsr := of_w1 "BSR" _ (by simp [dispatchTable, cpuRows, debugRows, Instr.opcode]) rfl
theorem and : Statement .and := of_w1 "AND" _ (by simp [dispatchTable, cpuRows, debugRows, Instr.opcode]) rfl
theorem ora : Statement .ora := of_w1 "ORA" _ (by simp [dispatchTable, cpuRows, debugRows, Instr.opcode]) rfl
theorem xor : Statement .xor := of_w1 "XOR" _ (by simp [dispatchTable, cpuRows, debugRows, Instr.opcode]) rfl
theorem dwr (data : Word) : Statement (.dwr data) :=
  of_w2 "DWR" .dwr data (by simp [dispatchTable, cpuRows, debugRows, Instr.opcode]) rfl
theorem dbgLgc (data : Word) : Statement (.dbgLgc data) :=
  of_w2 "DBG_LGC" .dbgLgc data (by simp [dispatchTable, cpuRows, debugRows, Instr.opcode]) rfl
theorem dgbMem : Statement .dgbMem := of_w1 "DGB_MEM" _ (by simp [dispatchTable, cpuRows, debugRows, Instr.opcode]) rfl
theorem dgbInp : Statement .dgbInp := of_w1 "DGB_INP" _ (by simp [dispatchTable, cpuRows, debugRows, Instr.opcode]) rfl

end Sys2Proof.Laws.Words
end

