-- ==== Sys2Proof/Machine/Assembler.lean ====
section
/-! DEFINITION. The assembler, surrounding software and informative (00_scope R4; 30_encoding R71–R81): source lines to
program words to the ROM image. No definition of the machine uses it. A source the spec says nothing about (91 N12, N13,
N15; 92 D32) is refused by name (log 24). -/

namespace Sys2Proof.Machine

/-- Why a source is not assembled. -/
inductive AsmError where
  /-- A part that begins with no known character: "fatal, abort the whole assembly" (R73, R78). -/
  | lexical (part : List Char)
  /-- A `%` part that is no base-10 integer in −32768..65535 (R73; 92 D32). -/
  | badDecimal (part : List Char)
  /-- A `$` part that is no base-16 number, or does not fit in 16 bits (R73; 91 N15). -/
  | badHexadecimal (part : List Char)
  /-- Two spaces in a row, a leading space, or an all-blank line: an empty part (91 N15). -/
  | emptyPart
  /-- A mnemonic of the graphics namespace, whose code is not given (91 N13). -/
  | graphicsMnemonic (part : List Char)
  deriving DecidableEq, Repr

/-- The tokens (R73, R74). -/
inductive AsmToken where
  /-- An identifier read as a mnemonic. -/
  | opcode (name : List Char)
  /-- A `%` literal. -/
  | decimal (w : Word)
  /-- A `$` literal. -/
  | hexadecimal (w : Word)
  /-- A label reference. -/
  | label (name : List Char)
  /-- A `:` part inside a line, the "safety net" (R73). DESIGN CHOICE, on which the spec is silent: it emits nothing and
  declares no label (log 24). -/
  | declaration (name : List Char)
  /-- The end of a line. -/
  | terminator
  deriving DecidableEq, Repr

/-- A line that is left after cleaning: a label declaration, which emits no word (R72), or the tokens of a line. -/
inductive AsmItem where
  /-- A label declared here. -/
  | declared (name : List Char)
  /-- The tokens of a line. -/
  | tokens (ts : List AsmToken)
  deriving DecidableEq, Repr

/-- White space at the ends of a line (log 24). -/
def isBlank (c : Char) : Bool := c == ' ' || c == '\t' || c == '\r' || c == '\n'

/-- A line without its leading white space. -/
def trimStart (line : List Char) : List Char := line.dropWhile isBlank

/-- A line without its trailing white space. -/
def trimEnd (line : List Char) : List Char := (line.reverse.dropWhile isBlank).reverse

/-- Cleaning (R71): none for an empty line or a comment line; else the line cut at its first `;`, its trailing white space
removed. -/
def cleanLine (line : List Char) : Option (List Char) :=
  if line.isEmpty || (trimStart line).head? == some ';' then none
  else some (trimEnd (line.takeWhile (· != ';')))

/-- The parts of a line, split on single spaces (R73). -/
def splitParts : List Char → List (List Char)
  | [] => [[]]
  | c :: cs =>
    match splitParts cs with
    | [] => [[c]]
    | part :: parts => if c == ' ' then [] :: part :: parts else (c :: part) :: parts

/-- The value of a base-10 digit. -/
def decimalDigit (c : Char) : Option Nat :=
  if '0' ≤ c && c ≤ '9' then some (c.toNat - '0'.toNat) else none

/-- The value of a base-16 digit, in either case (log 24). -/
def hexDigit (c : Char) : Option Nat :=
  if 'A' ≤ c && c ≤ 'F' then some (c.toNat - 'A'.toNat + 10)
  else if 'a' ≤ c && c ≤ 'f' then some (c.toNat - 'a'.toNat + 10)
  else decimalDigit c

/-- The number a run of digits stands for after what has been read of it. -/
def readDigits (base : Nat) (digit : Char → Option Nat) : Nat → List Char → Option Nat
  | n, [] => some n
  | n, c :: cs =>
    match digit c with
    | none => none
    | some d => readDigits base digit (n * base + d) cs

/-- The number a non-empty run of digits stands for. -/
def readNumber (base : Nat) (digit : Char → Option Nat) (cs : List Char) : Option Nat :=
  if cs.isEmpty then none else readDigits base digit 0 cs

/-- The word of a decimal literal: 0..65535 as is, −32768..−1 as v + 65536, nothing else (R73; 92 D32). -/
def decimalWord (cs : List Char) : Option Word :=
  match cs with
  | '-' :: ds =>
    match readNumber 10 decimalDigit ds with
    | none => none
    | some n => if n ≤ 32768 then some (Word.ofNat (65536 - n)) else none
  | _ =>
    match readNumber 10 decimalDigit cs with
    | none => none
    | some n => if n ≤ 65535 then some (Word.ofNat n) else none

/-- The word of a hexadecimal literal, which must fit in 16 bits (R73). -/
def hexWord (cs : List Char) : Option Word :=
  match readNumber 16 hexDigit cs with
  | none => none
  | some n => if n ≤ 65535 then some (Word.ofNat n) else none

/-- The code of a mnemonic in the combined table (R64, R65, R68). -/
def mnemonicCode (name : List Char) : Option Word :=
  (dispatchTable.find? (fun row => row.mnemonic.toList == name)).map DispatchRow.code

/-- The token before an identifier that makes it a label reference (R74). -/
def isJumpToken (t : Option AsmToken) : Bool :=
  t == some (.opcode ['J', 'P', 'Z']) || t == some (.opcode ['J', 'N', 'Z']) || t == some (.opcode ['J', 'M', 'P'])

/-- The token of a part, given the token before it in the same line (R73, R74). -/
def tokenOf (before : Option AsmToken) (part : List Char) : Except AsmError AsmToken :=
  match part with
  | [] => .error .emptyPart
  | '%' :: digits =>
    match decimalWord digits with
    | some w => .ok (.decimal w)
    | none => .error (.badDecimal part)
  | '$' :: digits =>
    match hexWord digits with
    | some w => .ok (.hexadecimal w)
    | none => .error (.badHexadecimal part)
  | ':' :: name => .ok (.declaration name)
  | c :: _ =>
    if !c.isAlpha then .error (.lexical part)
    else if isJumpToken before then .ok (.label part)
    else if part.take 4 == ['P', 'P', 'U', '_'] then .error (.graphicsMnemonic part)
    else .ok (.opcode part)

/-- The tokens of the parts of a line, and the terminator that ends it (R73). -/
def tokensOf (before : Option AsmToken) : List (List Char) → Except AsmError (List AsmToken)
  | [] => .ok [.terminator]
  | part :: parts =>
    match tokenOf before part with
    | .error e => .error e
    | .ok t =>
      match tokensOf (some t) parts with
      | .error e => .error e
      | .ok ts => .ok (t :: ts)

/-- The item of a cleaned line: a label declaration if its trimmed form starts with `:` (R72), else its tokens. -/
def itemOf (line : List Char) : Except AsmError AsmItem :=
  match trimStart line with
  | ':' :: name => .ok (.declared name)
  | _ =>
    match tokensOf none (splitParts line) with
    | .error e => .error e
    | .ok ts => .ok (.tokens ts)

/-- The items of a source. -/
def itemsOf : List (List Char) → Except AsmError (List AsmItem)
  | [] => .ok []
  | line :: lines =>
    match cleanLine line with
    | none => itemsOf lines
    | some text =>
      match itemOf text, itemsOf lines with
      | .error e, _ => .error e
      | .ok _, .error e => .error e
      | .ok item, .ok items => .ok (item :: items)

/-- The word of a label, an unmatched one being 0 and the first match winning (R72, R77). DESIGN CHOICE, on which the spec is
silent (log 24): an address above 0xFFFF (R76 counts words without a limit) is reduced mod 2^16, not refused. -/
def resolveLabel (labels : List (List Char × Nat)) (name : List Char) : Word :=
  match labels.find? (fun l => l.1 == name) with
  | some l => Word.ofNat l.2
  | none => 0

/-- The words a token emits (R75): a literal its value, a mnemonic its code, a label its address; an unknown mnemonic is
dropped (R77). -/
def emitToken (labels : List (List Char × Nat)) : AsmToken → List Word
  | .opcode name => (mnemonicCode name).toList
  | .decimal w => [w]
  | .hexadecimal w => [w]
  | .label name => [resolveLabel labels name]
  | .declaration _ => []
  | .terminator => []

/-- The words an item emits. -/
def emitItem (labels : List (List Char × Nat)) : AsmItem → List Word
  | .declared _ => []
  | .tokens ts => ts.flatMap (emitToken labels)

/-- The label table: each declared label with the word address of the first word emitted after it (R76; 90 C4). DESIGN CHOICE,
on which the spec is silent (log 24): only a line of its own declares a label, a `:` part inside a line does not; and the
table has no limit, so no declaration is ever beyond it and none is skipped (R77). -/
def labelTable (address : Nat) : List AsmItem → List (List Char × Nat)
  | [] => []
  | .declared name :: items => (name, address) :: labelTable address items
  | .tokens ts :: items => labelTable (address + (emitItem [] (.tokens ts)).length) items

/-- The program words of a source (R75, R76). -/
def assemble (source : List (List Char)) : Except AsmError (List Word) :=
  match itemsOf source with
  | .error e => .error e
  | .ok items => .ok (items.flatMap (emitItem (labelTable 0 items)))

/-- The image the assembler writes (R79). -/
def assembleImage (source : List (List Char)) : Except AsmError (List Byte) :=
  match assemble source with
  | .error e => .error e
  | .ok words => .ok (romImage words)

end Sys2Proof.Machine
end

