-- ==== Sys2Proof/Tests/Slice0.lean ====
section
/-! SUPPORT. The tests: ill-formed terms, words written out from the spec's encodings, the spec's vectors (95_test_vectors,
V and W) one step each, and for every statement with hypotheses a concrete state and operands that meet them. -/

open Sys2Proof Sys2Proof.Machine Sys2Proof.Claims

namespace Sys2Proof.Tests

/-! ## Helpers -/

/-- The state an outcome goes on with. -/
def nextOf (o : Host.Outcome State Fault Refusal) : Option State :=
  match o with
  | .next s => some s
  | .fault _ => none
  | .refused _ => none

/-- What `nextOf` answers is the next state. -/
theorem next_of_nextOf {o : Host.Outcome State Fault Refusal} {s : State} (h : nextOf o = some s) : o = .next s := by
  cases o <;> cases h
  rfl

/-- The fault an outcome stops with. -/
def faultOf (o : Host.Outcome State Fault Refusal) : Option Fault :=
  match o with
  | .next _ => none
  | .fault f => some f
  | .refused _ => none

/-- The refusal an outcome stops with. -/
def refusalOf (o : Host.Outcome State Fault Refusal) : Option Refusal :=
  match o with
  | .next _ => none
  | .fault _ => none
  | .refused r => some r

/-- The reset state with PC at pc and words stored there. -/
def at_ (pc : Word) (words : List Word) : State :=
  { State.reset with pc := pc, mem := Memory.writeWords [] pc.toNat words }

/-- The reset state with X, Y and SEL set and one word at address 0. -/
def alu (code x y sel : Word) : State := { at_ 0 [code] with x := x, y := y, sel := sel }

/-- One step. -/
def stepped (s : State) : Option State := nextOf (step s)

/-- What a step leaves in X, Y and PC. -/
def xyPc (s : State) : Option (Word × Word × Word) := (stepped s).map (fun t => (t.x, t.y, t.pc))

/-- What a step leaves in EQ, SEL, DBZ, HALT and PC. -/
def flagsPc (s : State) : Option (Word × Word × Word × Word × Word) :=
  (stepped s).map (fun t => (t.eq, t.sel, t.dbz, t.halt, t.pc))

/-- What a step leaves in the trace and in PC. -/
def tracePc (s : State) : Option (List Event × Word) := (stepped s).map (fun t => (t.trace, t.pc))

/-- The fault record a step leaves. -/
def recordAfter (s : State) : Option FaultRecord :=
  match stepped s with
  | some t =>
    match t.runState with
    | .faulted record => some record
    | .running => none
    | .halted => none
  | none => none

/-! ## WellFormed: an ill-formed term for each check -/

theorem test_wf_refuses_lfm_zero : (Instr.lfm 0).wellFormed = false := by decide
theorem test_wf_refuses_wtm_zero : (Instr.wtm 0).wellFormed = false := by decide
theorem test_wf_refuses_sra_two : (Instr.sra 2).wellFormed = false := by decide
theorem test_wf_accepts_edges :
    (Instr.lfm 1).wellFormed ∧ (Instr.wtm 0xFFFF).wellFormed ∧ (Instr.sra 0).wellFormed ∧ (Instr.sra 1).wellFormed := by
  decide
/-- The least index that is not inside the alphabet. -/
theorem test_wf_refuses_index_outside_alphabet : (Instr.dbgLgc (Word.ofNat Config.alphabetSize)).wellFormed = false := by
  have h := alphabetSize_bounds
  simp only [Instr.wellFormed, alphabetOperandOk, decide_eq_false_iff_not, BitVec.toNat_ofNat]
  omega
/-- The greatest index inside it. -/
theorem test_wf_accepts_last_index : (Instr.dbgLgc (Word.ofNat (Config.alphabetSize - 1))).wellFormed = true := by
  have h := alphabetSize_bounds
  simp only [Instr.wellFormed, alphabetOperandOk, decide_eq_true_eq, BitVec.toNat_ofNat]
  omega

/-! ## Decoding: words written bit by bit from 30_encoding R62, R64, R65 -/

theorem test_decode_nop : decode 0b0000000000000000 0b1111111111111111 = .ok .nop := by decide
theorem test_decode_lfm : decode 0b0000000000000001 0b0000000100000001 = .ok (.lfm 0x0101) := by decide
theorem test_decode_wtm : decode 0b0000000000000010 0b1000000000000000 = .ok (.wtm 0x8000) := by decide
theorem test_decode_sra : decode 0b0000000000000011 0b0000000000000001 = .ok (.sra 1) := by decide
theorem test_decode_axy : decode 0b0000000000000100 0 = .ok .axy := by decide
theorem test_decode_sxy : decode 0b0000000000000101 0 = .ok .sxy := by decide
theorem test_decode_mxy : decode 0b0000000000000110 0 = .ok .mxy := by decide
theorem test_decode_dxy : decode 0b0000000000000111 0 = .ok .dxy := by decide
theorem test_decode_equ : decode 0b0000000000001000 0 = .ok .equ := by decide
theorem test_decode_leq : decode 0b0000000000001001 0 = .ok .leq := by decide
theorem test_decode_jpz : decode 0b0000000000001010 0b0000000000100000 = .ok (.jpz 0x0020) := by decide
theorem test_decode_jnz : decode 0b0000000000001011 0b0000000000100000 = .ok (.jnz 0x0020) := by decide
theorem test_decode_jmp : decode 0b0000000000001100 0b0000000100000000 = .ok (.jmp 0x0100) := by decide
theorem test_decode_clr : decode 0b0000000000001101 0 = .ok .clr := by decide
theorem test_decode_hlt : decode 0b0000000000001110 0 = .ok .hlt := by decide
theorem test_decode_bsl : decode 0b0000000000001111 0 = .ok .bsl := by decide
theorem test_decode_bsr : decode 0b0000000000010000 0 = .ok .bsr := by decide
theorem test_decode_and : decode 0b0000000000010001 0 = .ok .and := by decide
theorem test_decode_ora : decode 0b0000000000010010 0 = .ok .ora := by decide
theorem test_decode_xor : decode 0b0000000000010011 0 = .ok .xor := by decide
theorem test_decode_dwr : decode 0b0000000000010100 0b1010101111001101 = .ok (.dwr 0xABCD) := by decide
theorem test_decode_dbgLgc : decode 0b1100000000000000 0b0000000000000111 = .ok (.dbgLgc 7) := by decide
theorem test_decode_dgbMem : decode 0b1100000000000001 0 = .ok .dgbMem := by decide
theorem test_decode_dgbInp : decode 0b1100000000000010 0 = .ok .dgbInp := by decide

/-- 30_encoding R67: both ends of each illegal range, and 0x00F0 of 95_test_vectors W7. -/
theorem test_decode_refuses_illegal_ends :
    decode 0x0015 0x1234 = .error (.illegalOpcode 0x0015) ∧ decode 0x00F0 0x1234 = .error (.illegalOpcode 0x00F0) ∧
    decode 0xBFFF 0x1234 = .error (.illegalOpcode 0xBFFF) ∧ decode 0xC003 0x1234 = .error (.illegalOpcode 0xC003) ∧
    decode 0xEFFF 0x1234 = .error (.illegalOpcode 0xEFFF) ∧ decode 0xF000 0x1234 = .error (.illegalOpcode 0xF000) ∧
    decode 0xFFFF 0x1234 = .error (.illegalOpcode 0xFFFF) := by decide

/-- 30_encoding R68, W1: the 24 codes of the table are distinct, and so are the 24 mnemonics. -/
theorem test_table_codes_distinct : (dispatchTable.map DispatchRow.code).Nodup ∧ dispatchTable.length = 24 := by decide
theorem test_table_mnemonics_distinct : (dispatchTable.map DispatchRow.mnemonic).Nodup := by decide

/-- The host's numbering: DWR 7, whose data word stands above its opcode word. -/
theorem test_decodeTableWord_dwr : decodeTableWord 32 0x00070014 = some (.dwr 7) := by decide
theorem test_decodeTableWord_ignores_bits_above : decodeTableWord 16 0x00070014 = some (.dwr 0) := by decide
theorem test_withFetchWord_runs : xyPc (State.reset.withFetchWord 32 0x00070014) = some (7, 0, 2) := by decide
/-- At 0xFFFF only the opcode word is stored; address 0 is left alone. -/
theorem test_withFetchWord_at_top :
    let s := ({ State.reset with pc := 0xFFFF }).withFetchWord 32 0x0007000E
    s.fetchOpcode = 0x000E ∧ s.mem.readWord 0 = 0 := by decide

/-! ## The cycle, NOP and illegal opcodes (95_test_vectors 2.1) -/

/-- V1. -/
theorem test_nop_V1 : stepped (at_ 5 [0x0000]) = some { at_ 5 [0x0000] with pc := 6, cycles := 1 } := by decide
/-- V2: from the top PC wraps to 0. -/
theorem test_nop_V2 : (stepped (at_ 0xFFFF [0x0000])).map State.pc = some 0 := by decide
/-- V3: two words past 0xFFFE. V24: into Y. -/
theorem test_dwr_V3_V24 : xyPc (at_ 0xFFFE [0x0014, 0xABCD]) = some (0xABCD, 0, 0) ∧
    xyPc { at_ 0 [0x0014, 0xFFFF] with sel := 1 } = some (0, 0xFFFF, 2) := by decide
/-- V4: DWR at 0xFFFF loads the TopData draw, and PC is 0, not 1. -/
theorem test_dwr_V4 : xyPc (at_ 0xFFFF [0x0014]) = some (Config.topData 0, 0, 0) := by rfl
/-- V5, W7. -/
theorem test_illegal_V5 : stepped (at_ 0x0010 [0x00F0]) =
    some { at_ 0x0010 [0x00F0] with pc := 0x0011, cycles := 1, trace := [.illegalOpcode 0x0010 0x00F0] } := by decide
/-- V6: the data word is ignored. -/
theorem test_illegal_V6 : tracePc (at_ 0 [0x0015, 0x1234]) = some ([.illegalOpcode 0 0x0015], 1) := by decide
/-- V7: the graphics namespace. -/
theorem test_illegal_V7 : tracePc (at_ 0 [0xF000]) = some ([.illegalOpcode 0 0xF000], 1) := by decide
/-- V8. -/
theorem test_illegal_V8 : tracePc (at_ 0 [0xC003]) = some ([.illegalOpcode 0 0xC003], 1) := by decide
/-- V9. -/
theorem test_illegal_V9 : tracePc (at_ 0xFFFF [0xFFFF]) = some ([.illegalOpcode 0xFFFF 0xFFFF], 0) := by decide

/-- V10, the first of its two cycles: NOP leaves the word 0x0005 to be the next opcode. -/
theorem test_nop_V10 : (stepped { at_ 0 [0x0000, 0x0005] with x := 0x000A, y := 3 }).map (fun t => (t.pc, t.fetchOpcode)) =
    some (1, 0x0005) := by decide
/-- V10, the second: it executes as SXY. -/
theorem test_sxy_V10 : xyPc { at_ 0 [0x0000, 0x0005] with pc := 1, x := 0x000A, y := 3 } = some (7, 3, 2) := by decide

/-! ## LFM, WTM, SRA, DWR (95_test_vectors 2.2) -/

/-- V12: the last address, into Y. -/
theorem test_lfm_V12 :
    xyPc { (at_ 0x0010 [0x0001, 0xFFFF]).store 0xFFFE 0x7777 with sel := 1 } = some (0, 0x7777, 0x0012) := by decide
/-- V13: the model fault, with no other change. -/
theorem test_lfm_V13 : stepped (at_ 0x0010 [0x0001, 0x0000]) =
    some { at_ 0x0010 [0x0001, 0x0000] with
      runState := .faulted { kind := .addressUnderflow, pc := 0x0010, op := 0x0001, data := 0x0000 } } := by decide
/-- V15. -/
theorem test_wtm_V15 : (stepped { at_ 0 [0x0002, 0x0101] with x := 0x1234 }).map (fun t => (t.mem.readWord 0x100, t.pc)) =
    some (0x1234, 2) := by decide
/-- V17: WTM overwrites its own data word; it used the one it had read. -/
theorem test_wtm_V17 : (stepped { at_ 0x0020 [0x0002, 0x0022] with x := 0x5555 }).map (fun t => (t.mem.readWord 0x21, t.pc)) =
    some (0x5555, 0x0022) := by decide
/-- V20, V21. -/
theorem test_sra_V20_V21 : flagsPc (at_ 0 [0x0003, 0x0001]) = some (0, 1, 0, 0, 2) ∧
    flagsPc { at_ 0 [0x0003, 0x0000] with sel := 1 } = some (0, 0, 0, 0, 2) := by decide
/-- V22, V23. -/
theorem test_sra_V22_V23 :
    recordAfter (at_ 0 [0x0003, 0x0002]) = some { kind := .selectorRange, pc := 0, op := 3, data := 2 } ∧
    recordAfter (at_ 0 [0x0003, 0xFFFF]) = some { kind := .selectorRange, pc := 0, op := 3, data := 0xFFFF } := by decide
/-- The codes of 60_exceptions R128. -/
theorem test_fault_codes :
    FaultKind.addressUnderflow.code = 1 ∧ FaultKind.selectorRange.code = 2 ∧ FaultKind.alphabetRange.code = 3 := by decide

/-! ## Arithmetic and comparison (95_test_vectors 2.3) -/

/-- V25, V27. -/
theorem test_axy_V25_V27 : xyPc (alu 4 0xFFFF 1 0) = some (0, 1, 1) ∧ xyPc (alu 4 3 4 1) = some (3, 7, 1) := by decide
/-- V29, V31: X − Y, never Y − X. -/
theorem test_sxy_V29_V31 : xyPc (alu 5 0 1 0) = some (0xFFFF, 1, 1) ∧ xyPc (alu 5 0x000A 3 1) = some (0x000A, 7, 1) := by decide
/-- V32, V33. -/
theorem test_mxy_V32_V33 :
    xyPc (alu 6 0xFFFF 0xFFFF 0) = some (1, 0xFFFF, 1) ∧ xyPc (alu 6 0x0100 0x0100 0) = some (0, 0x0100, 1) := by decide
/-- V41, V42. -/
theorem test_dxy_V41_V42 : (stepped (alu 7 9 0 1)).map (fun t => (t.x, t.y, t.dbz)) = some (9, 0, 1) ∧
    (stepped { alu 7 8 2 0 with dbz := 1 }).map (fun t => (t.x, t.y, t.dbz)) = some (4, 2, 1) := by decide
/-- V36, V43: floor and unsigned. -/
theorem test_dxy_V36_V43 : xyPc (alu 7 7 2 0) = some (3, 2, 1) ∧ xyPc (alu 7 0x8000 2 0) = some (0x4000, 2, 1) := by decide
/-- V44, V45. -/
theorem test_equ_V44_V45 : flagsPc (alu 8 5 5 0) = some (1, 0, 0, 0, 1) ∧
    flagsPc { alu 8 5 6 0 with eq := 1 } = some (0, 0, 0, 0, 1) := by decide
/-- V47, V48: strict. -/
theorem test_leq_V47_V48 : flagsPc (alu 9 2 9 0) = some (1, 0, 0, 0, 1) ∧ flagsPc (alu 9 9 9 0) = some (0, 0, 0, 0, 1) := by decide
/-- V49, V50: unsigned. -/
theorem test_leq_V49_V50 : flagsPc (alu 9 1 0xFFFF 0) = some (1, 0, 0, 0, 1) ∧
    flagsPc (alu 9 0xFFFF 0 0) = some (0, 0, 0, 0, 1) := by decide

/-! ## Control transfer (95_test_vectors 2.4) -/

/-- V51, V52: JPZ for both settings of JPZ_TAKEN_ON_EQUAL. -/
theorem test_jpz_V51_V52 :
    (stepped { at_ 4 [0x000A, 0x0020] with eq := 1 }).map State.pc =
      some (if Config.jpzTakenOnEqual then 0x0020 else 6) ∧
    (stepped (at_ 4 [0x000A, 0x0020])).map State.pc = some (if Config.jpzTakenOnEqual then 6 else 0x0020) := by
  generalize h : Config.jpzTakenOnEqual = p
  have e1 : stepped { at_ 4 [0x000A, 0x0020] with eq := 1 } =
    nextOf (execJpz 0x0020 { at_ 4 [0x000A, 0x0020] with eq := 1 }) := by rfl
  have e2 : stepped (at_ 4 [0x000A, 0x0020]) = nextOf (execJpz 0x0020 (at_ 4 [0x000A, 0x0020])) := by rfl
  rw [e1, e2]
  simp only [execJpz, jpzTaken, h]
  cases p <;> decide
/-- V53, V54: JNZ. -/
theorem test_jnz_V53_V54 :
    (stepped { at_ 4 [0x000B, 0x0020] with eq := 1 }).map State.pc =
      some (if Config.jpzTakenOnEqual then 6 else 0x0020) ∧
    (stepped (at_ 4 [0x000B, 0x0020])).map State.pc = some (if Config.jpzTakenOnEqual then 0x0020 else 6) := by
  generalize h : Config.jpzTakenOnEqual = p
  have e1 : stepped { at_ 4 [0x000B, 0x0020] with eq := 1 } =
    nextOf (execJnz 0x0020 { at_ 4 [0x000B, 0x0020] with eq := 1 }) := by rfl
  have e2 : stepped (at_ 4 [0x000B, 0x0020]) = nextOf (execJnz 0x0020 (at_ 4 [0x000B, 0x0020])) := by rfl
  rw [e1, e2]
  simp only [execJnz, jnzTaken, h]
  cases p <;> decide
/-- V55. -/
theorem test_jmp_V55 : (stepped (at_ 0 [0x000C, 0x0100])).map State.pc = some 0x0100 := by decide
/-- V56: a jump to its own address, for both settings of PC_CHANGE_DETECT. -/
theorem test_jmp_V56 : (stepped (at_ 0x0030 [0x000C, 0x0030])).map State.pc =
    some (match Config.pcChangeDetect with | .byValue => 0x0032 | .byWrite => 0x0030) := by
  have e : stepped (at_ 0x0030 [0x000C, 0x0030]) = nextOf (execJmp 0x0030 (at_ 0x0030 [0x000C, 0x0030])) := by rfl
  rw [e]
  simp only [execJmp, State.endCycle, nextPc]
  cases Config.pcChangeDetect <;> decide

/-! ## CLR and HLT (95_test_vectors 2.5) -/

/-- V60. -/
theorem test_clr_V60 :
    stepped { alu 0x000D 5 6 1 with eq := 1, dbz := 1 } = some { alu 0x000D 5 6 0 with pc := 1, cycles := 1 } := by decide
/-- V61. -/
theorem test_hlt_V61 : stepped (at_ 7 [0x000E]) =
    some { at_ 7 [0x000E] with pc := 8, halt := 1, runState := .halted, cycles := 1 } := by decide
/-- V62. -/
theorem test_hlt_V62 : flagsPc (at_ 0xFFFF [0x000E]) = some (0, 0, 0, 1, 0) := by decide

/-! ## Shifts and bitwise logic (95_test_vectors 2.6) -/

/-- V64, V65. -/
theorem test_bsl_V64_V65 : xyPc (alu 0x000F 0xFFFF 0 0) = some (0xFFFE, 0, 1) ∧
    xyPc (alu 0x000F 0 0x4001 1) = some (0, 0x8002, 1) := by decide
/-- V66, V67: logical. -/
theorem test_bsr_V66_V67 : xyPc (alu 0x0010 0x8000 0 0) = some (0x4000, 0, 1) ∧
    xyPc (alu 0x0010 1 0 0) = some (0, 0, 1) := by decide
/-- V69, V70. -/
theorem test_and_V69_V70 : xyPc (alu 0x0011 0x0F0F 0x00FF 0) = some (0x000F, 0x00FF, 1) ∧
    xyPc (alu 0x0011 0x0F0F 0x00FF 1) = some (0x0F0F, 0x000F, 1) := by decide
/-- V71. -/
theorem test_ora_V71 : xyPc (alu 0x0012 0x0F00 0x00F0 1) = some (0x0F00, 0x0FF0, 1) := by decide
/-- V72, V74. -/
theorem test_xor_V72_V74 : xyPc (alu 0x0013 0x00FF 0x0F0F 0) = some (0x0FF0, 0x0F0F, 1) ∧
    xyPc (alu 0x0013 0x1234 0xFFFF 0) = some (0xEDCB, 0xFFFF, 1) := by decide

/-! ## The debug extension (95_test_vectors 2.7) -/

/-- V75, V76: the first and the last index of the alphabet. -/
theorem test_dbgLgc_V75_V76 : ∀ i ∈ [0, Config.alphabetSize - 1],
    (nextOf (exec (.dbgLgc (Word.ofNat i)) State.reset)).map State.trace = some [.logChar (Config.debugAlphabet i)] := by
  have h := alphabetSize_bounds
  intro i hi
  have hlt : i < Config.alphabetSize := by
    simp only [List.mem_cons, List.not_mem_nil, or_false] at hi
    omega
  have hn : (Word.ofNat i).toNat = i := by
    simp only [BitVec.toNat_ofNat]
    omega
  have he : alphabetOperand (Word.ofNat i) = some (Config.debugAlphabet i) := by
    unfold alphabetOperand
    rw [hn, if_neg (by omega)]
  simp only [exec, execDbgLgc, he]
  rfl
/-- V77. -/
theorem test_dbgLgc_V77 : nextOf (exec (.dbgLgc (Word.ofNat Config.alphabetSize)) State.reset) = some { State.reset with
    runState := .faulted { kind := .alphabetRange, pc := 0, op := 0xC000, data := Word.ofNat Config.alphabetSize } } := by
  have h := alphabetSize_bounds
  have he : alphabetOperand (Word.ofNat Config.alphabetSize) = none := by
    unfold alphabetOperand
    exact if_pos (by simp only [BitVec.toNat_ofNat]; omega)
  simp only [exec, execDbgLgc, he]
  rfl
/-- V78: the word at 2 of the dump is DGB_MEM's own code, and the words beside it are 0. -/
theorem test_dgbMem_V78 : ((stepped (at_ 2 [0xC001])).map State.trace).map (fun es => es.map (fun e =>
    match e with
    | .memDump m => m.readWords 0 5
    | .logChar _ => []
    | .keyRead _ => []
    | .illegalOpcode _ _ => [])) = some [[0, 0, 0xC001, 0, 0]] := by decide
/-- V79, V80. -/
theorem test_dgbInp_V79_V80 :
    stepped ((at_ 0 [0xC002]).offerKey 0x0041) =
      some { at_ 0 [0xC002] with x := 0x0041, pc := 1, cycles := 1, trace := [.keyRead 0x0041] } ∧
    tracePc ((alu 0xC002 0 9 1).offerKey 0) = some ([.keyRead 0], 1) := by decide
/-- V81: the hold. -/
theorem test_dgbInp_V81 : stepped (at_ 0 [0xC002]) = some (at_ 0 [0xC002]) := by decide

/-! ## Reset, ROM load and the assembler (95_test_vectors 1 and 2.8) -/

/-- The 20 bytes of W6. -/
def imageW6 : List Byte :=
  [0x2E, 0x56, 0x49, 0x53, 0x4F, 0x46, 0x4F, 0x58, 0x31, 0x36, 0x00, 0x14, 0x00, 0x05, 0x00, 0x0E, 0x00, 0x00, 0x00, 0x0E]

/-- V82. -/
theorem test_launch_V82 : (nextOf (launch imageW6)).map (fun s => (s.mem.readWords 0 6, s.pc)) =
    some ([0x0014, 0x0005, 0x000E, 0x0000, 0x000E, 0x0000], 0) := by decide
/-- V83: the magic alone. -/
theorem test_launch_V83 : nextOf (launch (imageW6.take 10)) = some State.reset := by decide
/-- V84. -/
theorem test_launch_V84 :
    refusalOf (launch [0x2E, 0x56, 0x49, 0x53, 0x4F, 0x46, 0x4F, 0x58, 0x31, 0x37, 0x00, 0x0E]) = some .badMagic := by decide
/-- V85. -/
theorem test_launch_V85 : refusalOf (launch (imageW6.take 13)) = some .oddByteCount := by decide
/-- V86. -/
theorem test_launch_V86 : refusalOf (launch (imageW6.take 9)) = some .shortImage := by decide
/-- V87: no word past the 4096th is loaded, whatever the image. -/
theorem test_launch_V87 (words : List Word) : (loadedMemory words).readWord 0x1000 = 0 := by
  have hl : 0 + (words.take Config.romLoadLimit).length ≤ Config.memWords := by
    simp only [List.length_take, Config.romLoadLimit, Config.memWords]
    omega
  rw [loadedMemory, Memory.readWord_writeWords _ _ _ hl Memory.wf_nil]
  simp [Config.romLoadLimit, Memory.readWord, Memory.unlisted]

/-- W2. -/
theorem test_tokens_W2 : tokensOf none (splitParts "DWR %5".toList) =
    .ok [.opcode "DWR".toList, .decimal 5, .terminator] := by decide
/-- W3. -/
theorem test_tokens_W3 :
    tokensOf none (splitParts "JPZ loop".toList) = .ok [.opcode "JPZ".toList, .label "loop".toList, .terminator] ∧
    tokensOf none (splitParts "AXY loop".toList) = .ok [.opcode "AXY".toList, .opcode "loop".toList, .terminator] := by decide
/-- W3: the unknown mnemonic is dropped. -/
theorem test_assemble_W3 : assemble ["AXY loop".toList] = .ok [0x0004] := by decide
/-- W4. -/
theorem test_labels_W4 : (itemsOf [":a".toList, "NOP".toList, ":b".toList, "HLT".toList]).map (labelTable 0) =
    .ok [("a".toList, 0), ("b".toList, 1)] := by decide
/-- W6. -/
theorem test_assemble_W6 : assembleImage ["DWR %5".toList, "HLT".toList] = .ok imageW6 := by decide

/-- 30_encoding R75: operand counts are not checked. -/
theorem test_assemble_R75 : assemble ["NOP %5".toList] = .ok [0x0000, 0x0005] := by decide
/-- A `:` part inside a line emits nothing, and its name is in no label table (log 24). -/
theorem test_inline_declaration : (itemsOf ["NOP :a %5".toList]).map (labelTable 0) = .ok [] ∧
    assemble ["NOP :a %5".toList, "JMP a".toList] = .ok [0x0000, 0x0005, 0x000C, 0x0000] := by decide

/-! ## Witnesses: for each statement with hypotheses, a state and operands that meet them all -/

/-- `ResetMemoryIsZero`: both ends of memory. -/
theorem test_reset_memory_ends : State.reset.mem.readWord 0 = 0 ∧ State.reset.mem.readWord 65535 = 0 := by decide
/-- `LaunchLoadsProgramAndFooter`: a program and the addresses where its clauses meet. -/
theorem test_launch_witness : (nextOf (launch (romImage [0x0014, 0x0007]))).map
    (fun s => [s.mem.readWord 3, s.mem.readWord 4095, s.mem.readWord 4096]) = some [0x000E, 0, 0] := by decide
/-- `LaunchRefusesExactlyMalformedImages`: an image on each side. -/
theorem test_refusal_witness : (imageW6.take 9).length < 10 ∧ nextOf (launch (imageW6.take 9)) = none ∧
    nextOf (launch imageW6) ≠ none := by decide
/-- `DecodeEncodeAgree`: words that decode, at the last code. -/
theorem test_encode_witness : decode 0xC002 0xFFFF = .ok .dgbInp ∧ encode .dgbInp = [0xC002] ∧
    encode (.dwr 0xFFFF) = [0x0014, 0xFFFF] := by decide
/-- `StoredInstructionIsFetched`: the last PC with room for a data word, over words that stood there before. -/
theorem test_stored_witness :
    let s := at_ 0xFFFE [0xFFFF, 0xFFFF]
    s.mem.wf ∧ s.pc.toNat + 1 < 65536 ∧ Memory.readWords (s.mem.writeWords s.pc.toNat (encode (.dwr 7))) 0xFFFE 2 = [0x0014, 7] := by
  decide
/-- `IllegalOpcodesAreTheThreeRanges`: the legal codes beside the ranges' ends. -/
theorem test_legal_beside_ranges :
    decode 0x0014 0 = .ok (.dwr 0) ∧ decode 0xC000 0 = .ok (.dbgLgc 0) ∧ decode 0xC002 0 = .ok .dgbInp := by decide
/-- `StepRunsDecodedInstruction`. -/
theorem test_step_witness :
    let s := at_ 0 [0x0014, 0x0007]
    s.runState = .running ∧ s.halt = 0 ∧ decode s.fetchOpcode s.fetchData = .ok (.dwr 7) := by decide
/-- `IllegalOpcodeIsLoggedNop`. -/
theorem test_illegal_witness :
    let s := at_ 0 [0xF000]
    s.runState = .running ∧ s.halt = 0 ∧ (0xF000 : Word) = s.mem.readWord s.pc.toNat ∧
      decode 0xF000 s.fetchData = .error (.illegalOpcode 0xF000) := by decide
/-- `DataWordIsNextWordOrDraw`: each side of the boundary. -/
theorem test_data_word_below_top : (at_ 0xFFFE [0x0014, 0x1234]).pc.toNat < 65535 ∧
    (at_ 0xFFFE [0x0014, 0x1234]).fetchData = 0x1234 := by decide
theorem test_data_word_at_top : (at_ 0xFFFF [0x0014]).pc.toNat = 65535 ∧
    (at_ 0xFFFF [0x0014]).fetchData = Config.topData 0 := ⟨by decide, rfl⟩
/-- NOP and DWR are no jumps. -/
theorem test_not_jumps : ¬ IsJump .nop ∧ ¬ IsJump (.dwr 7) ∧ ¬ IsJump .dgbInp ∧ ¬ IsJump (.lfm 0) := by
  refine ⟨?_, ?_, ?_, ?_⟩ <;> rintro ⟨d, h | h | h⟩ <;> cases h
/-- `AdvancePastTopWrapsToZero`: PC past 0xFFFF, at it, and short of it. -/
theorem test_advance_witness :
    (nextOf (exec .nop (at_ 0xFFFF []))).map (fun t => (t.pc, t.cycles)) = some (0, 1) ∧
    (nextOf (exec (.dwr 7) (at_ 0xFFFE []))).map (fun t => (t.pc, t.cycles)) = some (0, 1) ∧
    (nextOf (exec .nop (at_ 0xFFFE []))).map (fun t => (t.pc, t.cycles)) = some (0xFFFF, 1) := by decide
/-- `EnabledCycleCompletesFaultsOrHolds`: a state for each of the three. -/
theorem test_cycle_witness :
    (stepped (at_ 0 [0x0000])).map State.cycles = some 1 ∧
    (at_ 0 [0x0002, 0x0000]).keepsDuties = false ∧
    ((at_ 0 [0xC002]).fetchOpcode = 0xC002 ∧ (at_ 0 [0xC002]).keyInput = []) := by decide
/-- `NoCycleOnceHaltedOrFaulted`: a state for each clause. -/
theorem test_stopped_witness :
    faultOf (step { State.reset with runState := .halted, halt := 1 }) = some .halted ∧
    faultOf (step { State.reset with halt := 1 }) = some .halted ∧
    faultOf (step { State.reset with runState := .faulted { kind := .selectorRange, pc := 0, op := 3, data := 2 } }) =
      some (.modelFault { kind := .selectorRange, pc := 0, op := 3, data := 2 }) := by decide
/-- `SelectorNamesActiveRegister`. -/
theorem test_selector_witness : (alu 0 5 6 0).activeValue = 5 ∧ (alu 0 5 6 1).activeValue = 6 ∧
    (alu 0 5 6 1).inactiveValue = 5 := by decide
/-- `LfmLoadsWordBelowData`: the least address, loaded (V11), beside the 0 that faults (V13). -/
theorem test_lfm_witness : (1 : Word) ≠ 0 ∧ (nextOf (exec (.lfm 1) (at_ 0 [0xCAFE]))).map State.x = some 0xCAFE := by decide
/-- `WtmStoresActiveRegister`: both ends of the addresses (V19), and the 0 that faults (V16). -/
theorem test_wtm_witness :
    effectiveAddress 1 = some 0 ∧ effectiveAddress 0xFFFF = some 0xFFFE ∧ effectiveAddress 0 = none ∧
    (nextOf (exec (.wtm 0xFFFF) (alu 0 0 0x00AA 1))).map (fun t => t.mem.readWord 0xFFFE) = some 0x00AA ∧
    recordAfter { at_ 0 [0x0002, 0x0000] with x := 0x1234 } =
      some { kind := .addressUnderflow, pc := 0, op := 2, data := 0 } := by decide
/-- `SraSetsSelector`: each side of the boundary. -/
theorem test_sra_witness : (1 : Word).toNat ≤ 1 ∧ (2 : Word).toNat > 1 := by decide
/-- `DxyDividesOrSetsDivideByZero`: a divisor for each clause (V39, V38). -/
theorem test_dxy_witness : (alu 7 9 0 0).y = 0 ∧ (alu 7 0 5 0).y ≠ 0 := by decide
/-- `EquTestsEquality` and `LeqTestsStrictlyLess`: operands for each clause, equal ones among them. -/
theorem test_compare_witness : (alu 8 5 5 0).x = (alu 8 5 5 0).y ∧ (alu 8 5 6 0).x ≠ (alu 8 5 6 0).y ∧
    (alu 9 2 9 0).x.toNat < (alu 9 2 9 0).y.toNat ∧ (alu 9 9 9 0).y.toNat ≤ (alu 9 9 9 0).x.toNat := by decide
/-- The premise of every statement that a run goes on as it was: HALT is 0. -/
theorem test_halt_clear_witness : State.reset.halt = 0 := by decide
/-- `ExactlyOneOfJpzAndJnzIsTaken`: both jumps answer a state, at a target neither falls through to. -/
theorem test_jump_pair_witness : ∃ t u, (0x0020 : Word) ≠ (at_ 4 []).pc ∧ (0x0020 : Word) ≠ advance (at_ 4 []).pc 2 ∧
    exec (.jpz 0x0020) (at_ 4 []) = .next t ∧ exec (.jnz 0x0020) (at_ 4 []) = .next u :=
  ⟨_, _, by decide, by decide, rfl, rfl⟩
/-- `DbgLgcLogsCharacter`: an index for each clause, where they meet. -/
theorem test_dbgLgc_witness : (Word.ofNat (Config.alphabetSize - 1)).toNat < Config.alphabetSize ∧
    (Word.ofNat Config.alphabetSize).toNat ≥ Config.alphabetSize := by
  have h := alphabetSize_bounds
  simp only [BitVec.toNat_ofNat]
  omega
/-- `DgbInpHoldsThenReadsKey`: no key, and one. -/
theorem test_dgbInp_witness : (at_ 0 [0xC002]).keyInput = [] ∧ ((at_ 0 [0xC002]).offerKey 0x41).keyInput = 0x41 :: [] := by
  decide
/-- `ModelFaultChangesNothingElse`: a model fault of an unfaulted state. -/
theorem test_model_fault_witness : (at_ 0 []).unfaulted = true ∧ ∃ t, exec (.wtm 0) (at_ 0 []) = .next t ∧
    t.runState = .faulted { kind := .addressUnderflow, pc := 0, op := 2, data := 0 } := ⟨by decide, _, rfl, rfl⟩
/-- `ModelFaultExactlyOnForbiddenOperand`: an unfaulted state, and an instruction on each side for it. -/
theorem test_forbidden_witness : State.reset.unfaulted = true ∧
    (nextOf (exec (.sra 2) State.reset)).map State.unfaulted = some false ∧
    (nextOf (exec (.sra 1) State.reset)).map State.unfaulted = some true := by decide
/-- `OnlySraAndClrSwitchRegisters`: SRA and CLR change SEL, in legal states. -/
theorem test_switch_witness :
    (nextOf (exec (.sra 1) State.reset)).map State.sel = some 1 ∧ State.reset.FlagsLegal ∧
    (nextOf (exec .clr (alu 0 5 6 1))).map State.sel = some 0 ∧ (alu 0 5 6 1).FlagsLegal := by
  refine ⟨by decide, ?_, by decide, ?_⟩ <;> unfold State.FlagsLegal <;> decide
/-- `FlagsHaveOnlyTheirWriters`: each flag changed by a writer of it. -/
theorem test_writers_witness :
    (nextOf (exec .equ State.reset)).map State.eq = some 1 ∧ (nextOf (exec (.sra 1) State.reset)).map State.sel = some 1 ∧
    (nextOf (exec .dxy State.reset)).map State.dbz = some 1 ∧ (nextOf (exec .hlt State.reset)).map State.halt = some 1 := by
  decide
/-- `OnlyWtmWritesMemory`: a step after which memory differs. -/
theorem test_write_witness :
    let s := { at_ 0 [0x0002, 0x0101] with x := 0x1234 }
    (stepped s).map (fun t => t.mem ≠ s.mem) = some True := by
  refine congrArg some (eq_true ?_)
  decide
/-- `OnlyJumpsRedirectPc`: an advance, and the two cycles that do not complete. -/
theorem test_pc_witness : (nextOf (exec .nop (at_ 4 []))).map State.pc = some 5 ∧
    (nextOf (exec (.lfm 0) (at_ 4 []))).map State.pc = some 4 ∧ (nextOf (exec .dgbInp (at_ 4 []))).map State.pc = some 4 := by
  decide
/-- `DivideByZeroFlagIsNeverRead`, `CycleCountIsNeverRead`: a step, away from the top. -/
theorem test_unread_witness : State.reset.pc.toNat ≠ 65535 ∧ ∃ t, step State.reset = .next t := ⟨by decide, _, rfl⟩
/-- `StepEmitsAtMostOneEvent`: a step with no event and one with one. -/
theorem test_event_witness : (stepped (at_ 0 [0x0000])).map State.trace = some [] ∧
    (stepped (at_ 0 [0x0015])).map State.trace = some [.illegalOpcode 0 0x0015] := by decide
/-- `StoreIsSeenByNextFetch`, V18: every hypothesis, and the next opcode. -/
theorem test_store_fetch_witness :
    let s := { at_ 0x0020 [0x0002, 0x0023] with x := 0x000E }
    s.mem.wf ∧ s.pc.toNat + 3 < 65536 ∧ s.runState = .running ∧ s.halt = 0 ∧ s.fetchOpcode = 0x0002 ∧
      s.fetchData.toNat = s.pc.toNat + 3 ∧ (stepped s).map (fun t => (t.fetchOpcode, t.pc)) = some (0x000E, 0x0022) := by decide
/-- `LoadReturnsWhatWasStored`: Y is stored, and loaded in a state with other registers and X active, which held another value. -/
theorem test_store_load_witness : (alu 0 5 6 1).mem.wf ∧ ∃ t t' u, exec (.wtm 0x0101) (alu 0 5 6 1) = .next t ∧
    t'.mem = t.mem ∧ exec (.lfm 0x0101) t' = .next u ∧ t'.act ≠ (alu 0 5 6 1).act ∧
    t'.activeValue ≠ (alu 0 5 6 1).activeValue :=
  ⟨by decide, (alu 0 5 6 1).store 0x0100 6 |>.endCycle 2 none,
    { (alu 0 5 6 1).store 0x0100 6 |>.endCycle 2 none with x := 9, y := 9, sel := 0 }, _, rfl, rfl, rfl, by decide, by decide⟩
/-- `CanonicalMemoryIsUnique`: two canonical memories, written in different orders, one through a word written over. -/
theorem test_canonical_witness :
    (Memory.writeWords [] 0 [7, 8]).wf ∧ ((Memory.writeWord [] 1 8).writeWord 2 9 |>.writeWord 2 0 |>.writeWord 0 7).wf ∧
    Memory.writeWords [] 0 [7, 8] = ((Memory.writeWord [] 1 8).writeWord 2 9 |>.writeWord 2 0 |>.writeWord 0 7) := by decide
/-- `StepKeepsInvariant`: a state with the invariant that takes a step. -/
theorem test_invariant_witness : (alu 0x000F 5 6 1).Inv ∧ ∃ t, step (alu 0x000F 5 6 1) = .next t :=
  ⟨⟨by decide, by unfold State.FlagsLegal; decide, by decide, by decide⟩, _, rfl⟩
/-- `ReachableStatesHaveInvariant`: a reached state, by a launch, a step and an offered key, that is not enabled. -/
theorem test_reachable_witness : ∃ u, Reachable u ∧ u.enabled = false := by
  have hl : launch (romImage [0x000E]) = .next (at_ 0 [0x000E, 0x0000, 0x000E]) := next_of_nextOf (by decide)
  have hs : step (at_ 0 [0x000E, 0x0000, 0x000E]) =
      .next { at_ 0 [0x000E, 0x0000, 0x000E] with pc := 1, halt := 1, runState := .halted, cycles := 1 } :=
    next_of_nextOf (by decide)
  exact ⟨_, .keyOffered 0x41 (.stepped (.launched hl) hs), by decide⟩
/-- `WordAfterOneWordInstructionIsNextOpcode`: each clause's hypotheses at the last PC they admit. -/
theorem test_next_opcode_witness :
    let s := at_ 0xFFFE [0x0000, 0x0005]
    s.pc.toNat < 65535 ∧ decode s.fetchOpcode s.fetchData = .ok .nop ∧ Instr.nop.length = 1 ∧
      (stepped s).map State.cycles = some (s.cycles + 1) ∧
      s.runState = .running ∧ s.halt = 0 ∧ s.fetchOpcode = 0x0000 ∧ s.fetchData = 0x0005 := by decide

end Sys2Proof.Tests
end

section
/-! Reset, and who switches the registers (10_state R17, R32). -/

namespace Sys2Proof.Machine

variable {s t u : State} {i : Instr}

/-- An instruction answers one state, so a state u that it answers with SEL unchanged is the state t it answers. -/
theorem sel_unchanged_of_exec (hu : exec i s = .next u) (hsel : u.sel = s.sel) (h : exec i s = .next t) :
    t.sel = s.sel :=
  Host.Outcome.next.inj (h.symm.trans hu) ▸ hsel

/-- Everything an instruction can do to SEL (10_state R17): leave it, or be an SRA whose operand names a register, or be
CLR. In the last two cases the whole next state is given. -/
theorem exec_sel_cases (h : exec i s = .next t) :
    t.sel = s.sel ∨ (∃ data, i = .sra data ∧ data.toNat ≤ 1 ∧ t = (s.setSel data).endCycle 2 none) ∨
      (i = .clr ∧ t = s.clearFlags.endCycle 1 none) := by
  cases i with
  | sra data =>
    cases he : selectorOperand data with
    | none => exact .inl (sel_unchanged_of_exec (exec_sra_of_none s data he) rfl h)
    | some v =>
      obtain ⟨hle, rfl⟩ := (selectorOperand_eq_some data v).1 he
      exact .inr (.inl ⟨v, rfl, hle, Host.Outcome.next.inj (h.symm.trans (exec_sra_of_some s v v he))⟩)
  | clr => exact .inr (.inr ⟨rfl, (Host.Outcome.next.inj h).symm⟩)
  | lfm data =>
    cases he : effectiveAddress data with
    | none => exact .inl (sel_unchanged_of_exec (exec_lfm_of_none s data he) rfl h)
    | some a => exact .inl (sel_unchanged_of_exec (exec_lfm_of_some s data a he) (by simp) h)
  | wtm data =>
    cases he : effectiveAddress data with
    | none => exact .inl (sel_unchanged_of_exec (exec_wtm_of_none s data he) rfl h)
    | some a => exact .inl (sel_unchanged_of_exec (exec_wtm_of_some s data a he) rfl h)
  | dbgLgc data =>
    cases he : alphabetOperand data with
    | none => exact .inl (sel_unchanged_of_exec (exec_dbgLgc_of_none s data he) rfl h)
    | some c => exact .inl (sel_unchanged_of_exec (exec_dbgLgc_of_some s data c he) rfl h)
  | dgbInp =>
    cases he : s.keyInput with
    | nil => exact .inl (sel_unchanged_of_exec (exec_dgbInp_of_nil s he) rfl h)
    | cons v rest => exact .inl (sel_unchanged_of_exec (exec_dgbInp_of_cons s v rest he) (by simp) h)
  | axy | sxy | mxy | dxy | bsl | bsr | and | ora | xor =>
    exact .inl (sel_unchanged_of_exec rfl (by simp [State.finishAlu_eq]) h)
  | dwr | nop | equ | leq | hlt | jpz | jnz | jmp | dgbMem => exact .inl (sel_unchanged_of_exec rfl (by simp) h)

/-- A legal flag word other than 0 is 1 (10_state R24). -/
theorem eq_zero_or_one_of_toNat_le {w : Word} (h : w.toNat ≤ 1) : w = 0 ∨ w = 1 := by
  bv_omega

/-- Two legal values of SEL that differ exchange the roles of the two registers (10_state R16, R17). -/
theorem State.roles_exchanged_of_sel_ne (hs : s.sel.toNat ≤ 1) (ht : t.sel.toNat ≤ 1) (hne : t.sel ≠ s.sel) :
    t.act = s.inact ∧ t.inact = s.act := by
  rcases eq_zero_or_one_of_toNat_le hs with hs | hs <;> rcases eq_zero_or_one_of_toNat_le ht with ht | ht
  · exact absurd (ht.trans hs.symm) hne
  · simp [State.act, State.inact, hs, ht]
  · simp [State.act, State.inact, hs, ht]
  · exact absurd (ht.trans hs.symm) hne

/-- Settles O43: an instruction that changes SEL is an SRA or CLR, and the next state of either is known. -/
theorem onlySraAndClrSwitchRegisters : Obligations.OnlySraAndClrSwitchRegisters := by
  intro s t i h hne
  obtain hsame | ⟨data, rfl, hle, rfl⟩ | ⟨rfl, rfl⟩ := exec_sel_cases h
  · exact absurd hsame hne
  · exact ⟨.inl ⟨data, rfl, rfl⟩, ⟨rfl, rfl⟩, fun ⟨_, hs, _, _⟩ => State.roles_exchanged_of_sel_ne hs hle hne⟩
  · exact ⟨.inr ⟨rfl, rfl, rfl⟩, ⟨rfl, rfl⟩,
      fun ⟨_, hs, _, _⟩ => State.roles_exchanged_of_sel_ne hs (Nat.zero_le 1) hne⟩

/-- Settles O1: each field of the reset state is the value R32 gives it. -/
theorem resetZeroesRegistersAndFlags : Obligations.ResetZeroesRegistersAndFlags :=
  ⟨rfl, rfl, rfl, rfl, rfl, rfl, rfl, rfl, rfl⟩

end Sys2Proof.Machine
end

section
/-! The words of an instruction and the decoder agree (30_encoding R57–R64). -/

namespace Sys2Proof.Machine

open Claims Laws

variable {code : Word} {i : Instr}

/-- No two rows of the dispatch table have the same opcode (30_encoding R64, R65), so a row is known by its opcode. -/
theorem dispatchRow_eq_of_code_eq {row row' : DispatchRow} (h : row ∈ dispatchTable) (h' : row' ∈ dispatchTable)
    (hcode : row.code = row'.code) : row = row' :=
  List.inj_on_of_nodup_map (f := DispatchRow.code) (by decide) h h' hcode

/-- A row of the dispatch table decides what its opcode decodes to (40_cycle R85). -/
theorem decode_code_of_mem {row : DispatchRow} (h : row ∈ dispatchTable) (data : Word) :
    decode row.code data = .ok (row.instruction data) := by
  unfold decode
  split
  next found hfound =>
    have hcode : found.code = row.code := by simpa using List.find?_some hfound
    rw [dispatchRow_eq_of_code_eq (List.mem_of_find?_eq_some hfound) h hcode]
  next hnone => exact absurd (List.find?_eq_none.1 hnone row h) (by simp)

/-- The words of an instruction decode to it, whatever word follows a one-word instruction (30_encoding R62, R63). -/
theorem decode_opcode_getD_dataWord (h : Words.Statement i) (next : Word) :
    decode i.opcode (i.dataWord.getD next) = .ok i := by
  obtain ⟨⟨row, hrow, hcode, hinstr⟩, -⟩ := h
  have hdata : i.dataWord.getD (i.dataWord.getD next) = i.dataWord.getD next := by cases i.dataWord <;> rfl
  rw [← hcode, decode_code_of_mem hrow, hinstr _ hdata]

/-- An instruction without a data word is the one word of its opcode (30_encoding R59). -/
theorem encodedW1_opcode (h : Words.Statement i) (hd : i.dataWord = none) : EncodedW1 i.opcode i :=
  ⟨by simp [encode, hd], fun next => by simpa [hd] using decode_opcode_getD_dataWord h next⟩

/-- Instructions with one opcode, each with its own data word, are the words of format W2 (30_encoding R60). -/
theorem encodedW2_of_opcode_eq {f : Word → Instr} (h : ∀ data, Words.Statement (f data))
    (hf : ∀ data, (f data).opcode = code ∧ (f data).dataWord = some data) : EncodedW2 code f := by
  intro data
  obtain ⟨hcode, hd⟩ := hf data
  exact ⟨by simp [encode, hcode, hd], by simpa [hcode, hd] using decode_opcode_getD_dataWord (h data) data⟩

/-- Settles O5: each of the 21 instructions stands in the dispatch table under its code, and those of format W2 carry
their data word. -/
theorem baseNamespaceCodes : Obligations.BaseNamespaceCodes :=
  ⟨encodedW1_opcode Words.nop rfl,
    encodedW2_of_opcode_eq Words.lfm fun _ => ⟨rfl, rfl⟩,
    encodedW2_of_opcode_eq Words.wtm fun _ => ⟨rfl, rfl⟩,
    encodedW2_of_opcode_eq Words.sra fun _ => ⟨rfl, rfl⟩,
    encodedW1_opcode Words.axy rfl,
    encodedW1_opcode Words.sxy rfl,
    encodedW1_opcode Words.mxy rfl,
    encodedW1_opcode Words.dxy rfl,
    encodedW1_opcode Words.equ rfl,
    encodedW1_opcode Words.leq rfl,
    encodedW2_of_opcode_eq Words.jpz fun _ => ⟨rfl, rfl⟩,
    encodedW2_of_opcode_eq Words.jnz fun _ => ⟨rfl, rfl⟩,
    encodedW2_of_opcode_eq Words.jmp fun _ => ⟨rfl, rfl⟩,
    encodedW1_opcode Words.clr rfl,
    encodedW1_opcode Words.hlt rfl,
    encodedW1_opcode Words.bsl rfl,
    encodedW1_opcode Words.bsr rfl,
    encodedW1_opcode Words.and rfl,
    encodedW1_opcode Words.ora rfl,
    encodedW1_opcode Words.xor rfl,
    encodedW2_of_opcode_eq Words.dwr fun _ => ⟨rfl, rfl⟩⟩

end Sys2Proof.Machine
end

section
/-! The bitwise instructions (45_shift_logic R117–R119): the shared shape of the ALU instructions, what it changes and what
it leaves unchanged, then the combination of the two registers bit by bit. -/

namespace Sys2Proof.Machine

open Claims Laws

variable {s t u : State} {f : Word → Word → Word} {g : Bool → Bool → Bool}

/-! ### The shared shape of the ALU instructions -/

/-- An ALU instruction writes its result to the active register, and not to the other one. -/
theorem State.writesActive_finishAlu (s : State) (v : Word) : WritesActive s (s.finishAlu v) v := by
  simp [WritesActive, State.finishAlu_eq]

/-- An ALU instruction completes its one-word cycle and leaves the flags, memory and the ports unchanged. -/
theorem State.finishAlu_frame (s : State) (v : Word) :
    GoesOn s (s.finishAlu v) 1 ∧ SameFlags s (s.finishAlu v) ∧ SameMemory s (s.finishAlu v) ∧
      SamePorts s (s.finishAlu v) := by
  simp +contextual [State.finishAlu_eq, GoesOn, SameFlags, SameMemory, SamePorts]

/-! ### Both registers, whichever is active -/

/-- The two registers in their two roles (10_state R16). -/
theorem State.act_inact_cases (s : State) : s.act = .x ∧ s.inact = .y ∨ s.act = .y ∧ s.inact = .x := by
  unfold State.act State.inact
  split
  · exact .inl ⟨rfl, rfl⟩
  · exact .inr ⟨rfl, rfl⟩

/-- X and Y are unchanged when the active and the inactive register are. -/
theorem State.sameRegisters_of_act_inact (hact : t.getReg s.act = s.getReg s.act)
    (hinact : t.getReg s.inact = s.getReg s.inact) : SameRegisters s t := by
  obtain ⟨ha, hi⟩ | ⟨ha, hi⟩ := s.act_inact_cases <;> rw [ha] at hact <;> rw [hi] at hinact
  · exact ⟨hact, hinact⟩
  · exact ⟨hinact, hact⟩

/-- A commutative operation gives one result for X and Y in either role. -/
theorem State.active_inactive_comm (s : State) (hcomm : ∀ a b, f a b = f b a) :
    f s.activeValue s.inactiveValue = f s.x s.y := by
  unfold State.activeValue State.inactiveValue
  obtain ⟨ha, hi⟩ | ⟨ha, hi⟩ := s.act_inact_cases <;> rw [ha, hi]
  · rfl
  · exact hcomm s.y s.x

/-! ### Combining the registers bit by bit -/

/-- Bit k of the and is the and of the bits k (R117). -/
theorem getLsbD_andResult (a b : Word) (k : Nat) : (andResult a b).getLsbD k = (a.getLsbD k && b.getLsbD k) :=
  BitVec.getLsbD_and

/-- Bit k of the or is the or of the bits k (R118). -/
theorem getLsbD_orResult (a b : Word) (k : Nat) : (orResult a b).getLsbD k = (a.getLsbD k || b.getLsbD k) :=
  BitVec.getLsbD_or

/-- Bit k of the exclusive or is the exclusive or of the bits k (R119). -/
theorem getLsbD_xorResult (a b : Word) (k : Nat) : (xorResult a b).getLsbD k = (a.getLsbD k ^^ b.getLsbD k) :=
  BitVec.getLsbD_xor

/-- What an operation that works bit by bit leaves in the active register, one bit at a time. -/
theorem State.getLsbD_act_of_bitwise (hbit : ∀ a b k, (f a b).getLsbD k = g (a.getLsbD k) (b.getLsbD k))
    (hact : t.getReg s.act = f s.activeValue s.inactiveValue) (k : Nat) :
    (t.getReg s.act).getLsbD k = g ((s.getReg s.act).getLsbD k) ((s.getReg s.inact).getLsbD k) :=
  hact ▸ hbit s.activeValue s.inactiveValue k

/-- An exclusive or done twice with one value restores the other (R119). -/
theorem xorResult_xorResult_cancel (a b : Word) : xorResult (xorResult a b) b = a := by
  simp [xorResult]

/-- Two exclusive ors restore both registers: the roles stay (SEL is unchanged), so the second one combines the first
one's result with the very value that gave it (R119). -/
theorem State.sameRegisters_of_xor_xor (ht : WritesActive s t (xorResult s.activeValue s.inactiveValue))
    (hsel : t.sel = s.sel) (hu : WritesActive t u (xorResult t.activeValue t.inactiveValue)) : SameRegisters s u := by
  obtain ⟨htAct, htInact⟩ := ht
  obtain ⟨huAct, huInact⟩ := hu
  unfold State.activeValue State.inactiveValue at htAct huAct
  rw [s.act_congr t hsel, s.inact_congr t hsel, htAct, htInact, xorResult_xorResult_cancel] at huAct
  rw [s.inact_congr t hsel, htInact] at huInact
  exact State.sameRegisters_of_act_inact huAct huInact

/-- Settles O35: an ALU result of both registers, the and, which works bit by bit and is commutative. -/
theorem andCombinesBothRegisters : Obligations.AndCombinesBothRegisters := by
  refine ⟨encodedW1_opcode Words.and rfl, fun s => ?_⟩
  obtain ⟨hact, hinact⟩ := s.writesActive_finishAlu (andResult s.activeValue s.inactiveValue)
  exact ⟨_, rfl, fun k _ => State.getLsbD_act_of_bitwise getLsbD_andResult hact k, hinact,
    hact.trans (s.active_inactive_comm BitVec.and_comm), s.finishAlu_frame _⟩

/-- Settles O36: an ALU result of both registers, the or, which works bit by bit and is commutative. -/
theorem oraCombinesBothRegisters : Obligations.OraCombinesBothRegisters := by
  refine ⟨encodedW1_opcode Words.ora rfl, fun s => ?_⟩
  obtain ⟨hact, hinact⟩ := s.writesActive_finishAlu (orResult s.activeValue s.inactiveValue)
  exact ⟨_, rfl, fun k _ => State.getLsbD_act_of_bitwise getLsbD_orResult hact k, hinact,
    hact.trans (s.active_inactive_comm BitVec.or_comm), s.finishAlu_frame _⟩

/-- Settles O37: an ALU result of both registers, the exclusive or, which works bit by bit and cancels itself. -/
theorem xorCombinesBothRegisters : Obligations.XorCombinesBothRegisters := by
  refine ⟨encodedW1_opcode Words.xor rfl, fun s => ?_⟩
  obtain ⟨hact, hinact⟩ := s.writesActive_finishAlu (xorResult s.activeValue s.inactiveValue)
  have hsel : (s.finishAlu (xorResult s.activeValue s.inactiveValue)).sel = s.sel := by simp [State.finishAlu_eq]
  have htwice := State.sameRegisters_of_xor_xor ⟨hact, hinact⟩ hsel (State.writesActive_finishAlu _ _)
  exact ⟨_, _, rfl, rfl, fun k _ => State.getLsbD_act_of_bitwise getLsbD_xorResult hact k, hinact, htwice,
    s.finishAlu_frame _⟩

end Sys2Proof.Machine
end

section
/-! Memory before a ROM is loaded (70_reset_and_hazards R145). -/

namespace Sys2Proof.Machine

/-- In the empty memory every word reads 0: no cell lists either of its bytes (R145). -/
@[simp] theorem Memory.readWord_nil (a : Nat) : Memory.readWord [] a = 0 := by
  have hzero : Word.ofBytes Memory.unlisted Memory.unlisted = 0 := by decide
  rw [Memory.readWord, Memory.readByte_nil, Memory.readByte_nil, hzero]

/-- Settles O2: no ROM is loaded at reset, so memory is empty and every word of it reads 0. -/
theorem resetMemoryIsZero : Obligations.ResetMemoryIsZero :=
  fun a _ => Memory.readWord_nil a

end Sys2Proof.Machine
end

section
/-! The decoder in both directions (30_encoding R57–R67), and the fetch of a stored instruction (40_cycle R83–R85). -/

namespace Sys2Proof.Machine

open Claims Laws

variable {op data : Word} {i : Instr}

/-- Every instruction stands in the dispatch table under its opcode (30_encoding R62). -/
theorem words_statement (i : Instr) : Words.Statement i := by
  cases i with
  | nop => exact Words.nop
  | lfm data => exact Words.lfm data
  | wtm data => exact Words.wtm data
  | sra data => exact Words.sra data
  | axy => exact Words.axy
  | sxy => exact Words.sxy
  | mxy => exact Words.mxy
  | dxy => exact Words.dxy
  | equ => exact Words.equ
  | leq => exact Words.leq
  | jpz data => exact Words.jpz data
  | jnz data => exact Words.jnz data
  | jmp data => exact Words.jmp data
  | clr => exact Words.clr
  | hlt => exact Words.hlt
  | bsl => exact Words.bsl
  | bsr => exact Words.bsr
  | and => exact Words.and
  | ora => exact Words.ora
  | xor => exact Words.xor
  | dwr data => exact Words.dwr data
  | dbgLgc data => exact Words.dbgLgc data
  | dgbMem => exact Words.dgbMem
  | dgbInp => exact Words.dgbInp

/-- The words of any instruction decode to it, whatever word follows a one-word instruction (30_encoding R62, R63). -/
theorem decode_words (i : Instr) (next : Word) : decode i.opcode (i.dataWord.getD next) = .ok i :=
  decode_opcode_getD_dataWord (words_statement i) next

/-- A row gives an instruction with the row's own code, whose data word, if it has one, is the word it was given. -/
theorem dispatchRow_words {row : DispatchRow} (h : row ∈ dispatchTable) (data : Word) :
    (row.instruction data).opcode = row.code ∧
      ((row.instruction data).dataWord = none ∨ (row.instruction data).dataWord = some data) := by
  revert row
  simp [dispatchTable, cpuRows, debugRows, DispatchRow.instruction, DispatchRow.code, Instr.opcode, Instr.dataWord]

/-- What two words can decode to: an instruction with that opcode, whose data word, if it has one, is the second word. -/
theorem words_of_decode (h : decode op data = .ok i) :
    i.opcode = op ∧ (i.dataWord = none ∨ i.dataWord = some data) := by
  unfold decode at h
  split at h
  next row hrow =>
    cases h
    have hcode : row.code = op := by simpa using List.find?_some hrow
    exact hcode ▸ dispatchRow_words (List.mem_of_find?_eq_some hrow) data
  next => cases h

/-- An instruction whose data word, if it has one, is the word after its opcode is encoded as the first of those words. -/
theorem encode_eq_take (h : i.dataWord = none ∨ i.dataWord = some data) :
    encode i = [i.opcode, data].take i.length := by
  rcases h with h | h <;> simp [encode, Instr.length, h]

/-- Settles O6: each instruction stands in the dispatch table under its opcode, and a row gives only instructions with
its own code and the data word it was given. -/
theorem decodeEncodeAgree : Obligations.DecodeEncodeAgree := by
  refine ⟨decode_words, fun op data i h => ?_⟩
  obtain ⟨rfl, hdata⟩ := words_of_decode h
  exact encode_eq_take hdata

/-! ### The illegal opcodes -/

/-- Decoding is an error exactly on an opcode that stands in no row (40_cycle R93). -/
theorem decode_eq_error_iff :
    decode op data = .error (.illegalOpcode op) ↔ op ∉ dispatchTable.map DispatchRow.code := by
  have hfind : dispatchTable.find? (fun row => row.code == op) = none ↔
      op ∉ dispatchTable.map DispatchRow.code := by
    simp
  rw [← hfind]
  unfold decode
  split <;> simp_all

/-- The codes of the dispatch table, the CPU range and the debug range (30_encoding R64, R65). -/
theorem mem_dispatchCodes_iff :
    op ∈ dispatchTable.map DispatchRow.code ↔ op.toNat ≤ 0x0014 ∨ (0xC000 ≤ op.toNat ∧ op.toNat ≤ 0xC002) := by
  have hcodes : op ∈ dispatchTable.map DispatchRow.code ↔
      op.toNat ∈ (dispatchTable.map DispatchRow.code).map BitVec.toNat :=
    (List.mem_map_of_injective fun _ _ => BitVec.eq_of_toNat_eq).symm
  have hnumbers : (dispatchTable.map DispatchRow.code).map BitVec.toNat =
      [0, 1, 2, 3, 4, 5, 6, 7, 8, 9, 10, 11, 12, 13, 14, 15, 16, 17, 18, 19, 20, 0xC000, 0xC001, 0xC002] := by
    decide
  rw [hcodes, hnumbers]
  simp only [List.mem_cons, List.not_mem_nil, or_false]
  omega

/-- Settles O8: the three ranges are what the codes of the dispatch table leave of the 16-bit words. -/
theorem illegalOpcodesAreTheThreeRanges : Obligations.IllegalOpcodesAreTheThreeRanges := by
  intro op data
  rw [decode_eq_error_iff, mem_dispatchCodes_iff]
  have := op.isLt
  omega

/-! ### The fetch -/

/-- Below the last address the data word is read from memory (40_cycle R84). -/
theorem State.fetchData_of_ne_last {s : State} (h : s.pc.toNat ≠ 65535) :
    s.fetchData = s.mem.readWord (s.pc.toNat + 1) :=
  if_neg h

/-- Settles O7: the opcode is read back from PC and the data word, if there is one, from PC + 1. -/
theorem storedInstructionIsFetched : Obligations.StoredInstructionIsFetched := by
  intro s i hwf hpc t
  have hlen : s.pc.toNat + (encode i).length ≤ Config.memWords := by
    obtain ⟨-, hwords, hi⟩ := words_statement i
    simp only [Config.memWords]
    omega
  have hread (b : Nat) (hb : s.pc.toNat ≤ b) :
      t.mem.readWord b = ((encode i)[b - s.pc.toNat]?).getD (s.mem.readWord b) := by
    rw [s.mem.readWord_writeWords _ _ hlen hwf, if_pos hb]
  have hop : t.fetchOpcode = i.opcode :=
    (hread _ le_rfl).trans (by simp [encode])
  have hdata : t.fetchData = i.dataWord.getD (s.mem.readWord (s.pc.toNat + 1)) := by
    have hne : t.pc.toNat ≠ 65535 := by simp only [t]; omega
    rw [State.fetchData_of_ne_last hne]
    exact (hread _ (Nat.le_succ _)).trans (by cases hd : i.dataWord <;> simp [encode, hd])
  rw [hop, hdata, decode_words]

/-- Settles O11: below the last address the data word is read from memory, at it it is the draw. -/
theorem dataWordIsNextWordOrDraw : Obligations.DataWordIsNextWordOrDraw :=
  fun _ => ⟨fun h => State.fetchData_of_ne_last h.ne, fun h => if_pos h⟩

end Sys2Proof.Machine
end

section
/-! What an instruction may change, and the invariant (10_state R19–R24, R28; 20_memory R39; 46_debug_extension R124). -/

namespace Sys2Proof.Machine

open Claims

variable {s t : State} {i : Instr}

/-! ### One inversion lemma: the flags, memory and the trace after an instruction -/

/-- A flag word is kept, or written by one of the instructions named for it with 0 or 1 (10_state R19, R24). -/
def FlagKept (writes : Prop) (old new : Word) : Prop := new = old ∨ (writes ∧ new.toNat ≤ 1)

/-- What instruction i may change between s and t: each flag only if i is named for it, memory only if it is a WTM, and
the trace by one event of a completed cycle. -/
structure Changes (i : Instr) (s t : State) : Prop where
  eq : FlagKept (i = .equ ∨ i = .leq ∨ i = .clr) s.eq t.eq
  sel : FlagKept ((∃ data, i = .sra data) ∨ i = .clr) s.sel t.sel
  dbz : FlagKept (i = .dxy ∨ i = .clr) s.dbz t.dbz
  halt : FlagKept (i = .hlt ∨ i = .clr) s.halt t.halt
  mem : t.mem = s.mem ∨
    ∃ data a, i = .wtm data ∧ effectiveAddress data = some a ∧ t.mem = s.mem.writeWord a s.activeValue
  trace : (t.trace = s.trace ∧ s.cycles ≤ t.cycles) ∨ ∃ e, t.trace = s.trace ++ [e] ∧ t.cycles = s.cycles + 1

/-- A flag that changed was written by one of its instructions. -/
theorem FlagKept.writes_of_ne {writes : Prop} {old new : Word} (h : FlagKept writes old new) (hne : new ≠ old) : writes :=
  (h.resolve_left hne).1

/-- A legal flag stays legal (10_state R24). -/
theorem FlagKept.le_one {writes : Prop} {old new : Word} (h : FlagKept writes old new) (hold : old.toNat ≤ 1) :
    new.toNat ≤ 1 := by
  rcases h with rfl | ⟨-, h⟩
  · exact hold
  · exact h

/-- An instruction that keeps the flags and memory, and the trace or all but one event of it. -/
theorem Changes.of_sameFlags (hflags : SameFlags s t) (hmem : t.mem = s.mem)
    (htrace : (t.trace = s.trace ∧ s.cycles ≤ t.cycles) ∨ ∃ e, t.trace = s.trace ++ [e] ∧ t.cycles = s.cycles + 1) :
    Changes i s t := by
  obtain ⟨heq, hsel, hdbz, hhalt⟩ := hflags
  exact ⟨.inl heq, .inl hsel, .inl hdbz, .inl hhalt, .inl hmem, htrace⟩

/-- A model fault changes none of it (40_cycle R91). -/
theorem Changes.raiseModelFault (s : State) (kind : FaultKind) (op data : Word) :
    Changes i s (s.raiseModelFault kind op data) :=
  .of_sameFlags ⟨rfl, rfl, rfl, rfl⟩ rfl (.inl ⟨rfl, le_rfl⟩)

/-- An instruction that only writes the active register. -/
theorem Changes.setActive (s : State) (v : Word) (len : Nat) : Changes i s ((s.setActive v).endCycle len none) :=
  .of_sameFlags (by simp [SameFlags]) (by simp) (.inl (by simp))

/-- An event is logged; nothing else of it changes (00_scope R10). -/
theorem Changes.emit (s : State) (e : Event) (len : Nat) : Changes i s ((s.emit e).endCycle len none) :=
  .of_sameFlags ⟨rfl, rfl, rfl, rfl⟩ rfl (.inr ⟨e, rfl, rfl⟩)

/-- The end of the cycle alone, a jump or not, changes none of it. -/
theorem Changes.endCycle (s : State) (len : Nat) (jump : Option Word) : Changes i s (s.endCycle len jump) :=
  .of_sameFlags ⟨rfl, rfl, rfl, rfl⟩ rfl (.inl ⟨rfl, Nat.le_succ _⟩)

/-- An instruction answers one state, so what holds of a state u that it answers holds of the state t it answers. -/
theorem Changes.of_exec {u : State} (hu : exec i s = .next u) (hc : Changes i s u) (h : exec i s = .next t) :
    Changes i s t :=
  Host.Outcome.next.inj (hu.symm.trans h) ▸ hc

/-- Everything an instruction can do to the flags, memory and the trace. -/
theorem exec_changes (h : exec i s = .next t) : Changes i s t := by
  cases i with
  | lfm data =>
    cases he : effectiveAddress data with
    | none => exact .of_exec (exec_lfm_of_none s data he) (.raiseModelFault ..) h
    | some a => exact .of_exec (exec_lfm_of_some s data a he) (.setActive ..) h
  | wtm data =>
    cases he : effectiveAddress data with
    | none => exact .of_exec (exec_wtm_of_none s data he) (.raiseModelFault ..) h
    | some a =>
      exact .of_exec (exec_wtm_of_some s data a he)
        ⟨.inl rfl, .inl rfl, .inl rfl, .inl rfl, .inr ⟨data, a, rfl, he, rfl⟩, .inl ⟨rfl, Nat.le_succ _⟩⟩ h
  | sra data =>
    cases he : selectorOperand data with
    | none => exact .of_exec (exec_sra_of_none s data he) (.raiseModelFault ..) h
    | some v =>
      obtain ⟨hle, rfl⟩ := (selectorOperand_eq_some data v).1 he
      exact .of_exec (exec_sra_of_some s v v he)
        ⟨.inl rfl, .inr ⟨.inl ⟨v, rfl⟩, hle⟩, .inl rfl, .inl rfl, .inl rfl, .inl ⟨rfl, Nat.le_succ _⟩⟩ h
  | dbgLgc data =>
    cases he : alphabetOperand data with
    | none => exact .of_exec (exec_dbgLgc_of_none s data he) (.raiseModelFault ..) h
    | some c => exact .of_exec (exec_dbgLgc_of_some s data c he) (.emit ..) h
  | dgbInp =>
    cases he : s.keyInput with
    | nil =>
      exact .of_exec (exec_dgbInp_of_nil s he) (.of_sameFlags ⟨rfl, rfl, rfl, rfl⟩ rfl (.inl ⟨rfl, le_rfl⟩)) h
    | cons v rest =>
      exact .of_exec (exec_dgbInp_of_cons s v rest he)
        (.of_sameFlags (by simp [SameFlags]) (by simp) (.inr ⟨.keyRead v, by simp⟩)) h
  | equ =>
    exact .of_exec rfl
      ⟨.inr ⟨.inl rfl, flagWord_le _⟩, .inl rfl, .inl rfl, .inl rfl, .inl rfl, .inl ⟨rfl, Nat.le_succ _⟩⟩ h
  | leq =>
    exact .of_exec rfl
      ⟨.inr ⟨.inr (.inl rfl), flagWord_le _⟩, .inl rfl, .inl rfl, .inl rfl, .inl rfl, .inl ⟨rfl, Nat.le_succ _⟩⟩ h
  | clr =>
    exact .of_exec rfl
      ⟨.inr ⟨.inr (.inr rfl), Nat.zero_le 1⟩, .inr ⟨.inr rfl, Nat.zero_le 1⟩, .inr ⟨.inr rfl, Nat.zero_le 1⟩,
        .inr ⟨.inr rfl, Nat.zero_le 1⟩, .inl rfl, .inl ⟨rfl, Nat.le_succ _⟩⟩ h
  | hlt =>
    exact .of_exec rfl
      ⟨.inl rfl, .inl rfl, .inl rfl, .inr ⟨.inl rfl, le_rfl⟩, .inl rfl, .inl ⟨rfl, Nat.le_succ _⟩⟩ h
  | dxy =>
    have hdbz : FlagKept (Instr.dxy = .dxy ∨ Instr.dxy = .clr) s.dbz (divideByZeroFlag s.y s.dbz) := by
      unfold divideByZeroFlag
      split
      · exact .inr ⟨.inl rfl, le_rfl⟩
      · exact .inl rfl
    exact .of_exec rfl
      ⟨.inl (by simp [State.finishAlu_eq]), .inl (by simp [State.finishAlu_eq]), by simpa [State.finishAlu_eq] using hdbz,
        .inl (by simp [State.finishAlu_eq]), .inl (by simp [State.finishAlu_eq]), .inl (by simp [State.finishAlu_eq])⟩ h
  | axy | sxy | mxy | bsl | bsr | and | ora | xor | dwr => exact .of_exec rfl (.setActive ..) h
  | nop | jpz | jnz | jmp => exact .of_exec rfl (.endCycle ..) h
  | dgbMem => exact .of_exec rfl (.emit ..) h

/-- Settles O44: a flag that changed was written by one of the instructions named for it. -/
theorem flagsHaveOnlyTheirWriters : Obligations.FlagsHaveOnlyTheirWriters := by
  intro s t i h
  have hc := exec_changes h
  exact ⟨hc.eq.writes_of_ne, hc.sel.writes_of_ne, hc.dbz.writes_of_ne, hc.halt.writes_of_ne⟩

/-- A step changes what the instruction it runs may change; an illegal opcode changes what a NOP may (40_cycle R93). -/
theorem step_changes (h : step s = .next t) :
    (∃ i, decode s.fetchOpcode s.fetchData = .ok i ∧ Changes i s t) ∨ Changes .nop s t := by
  obtain ⟨-, -, ⟨i, hi, hexec⟩ | ⟨op, -, hillegal⟩⟩ := step_cases s t h
  · exact .inl ⟨i, hi, exec_changes hexec⟩
  · exact .inr (Host.Outcome.next.inj hillegal ▸ .emit ..)

/-- A step changes what some instruction may change. -/
theorem exists_changes_of_step (h : step s = .next t) : ∃ i, Changes i s t := by
  obtain ⟨i, -, hc⟩ | hc := step_changes h
  · exact ⟨i, hc⟩
  · exact ⟨.nop, hc⟩

/-- Settles O45: an instruction that changes memory is a WTM, and its store leaves every other word alone. -/
theorem onlyWtmWritesMemory : Obligations.OnlyWtmWritesMemory := by
  intro s t h hne
  obtain ⟨i, hi, hc⟩ | hc := step_changes h
  · obtain ⟨data, a, rfl, ha, hmem⟩ := hc.mem.resolve_left hne
    exact ⟨data, a, hi, ha, fun b hb => hmem ▸ s.mem.readWord_writeWord_ne a _ b hb⟩
  · obtain ⟨_, _, hnop, -⟩ := hc.mem.resolve_left hne
    cases hnop

/-- Settles O49: an instruction, or the log of an illegal opcode, appends one event or none. -/
theorem stepEmitsAtMostOneEvent : Obligations.StepEmitsAtMostOneEvent := by
  intro s t h
  obtain ⟨i, hc⟩ := exists_changes_of_step h
  exact hc.trace.imp And.left fun ⟨e, he, _⟩ => ⟨e, he⟩

/-! ### The invariant -/

/-- The run state after a step (40_cycle R89, R91): that of the halt check at the end of the cycle, or Faulted; HALT
itself is then unchanged. A DGB_INP that holds leaves it Running. -/
theorem step_runState_cases (h : step s = .next t) :
    t.runState = (if t.halt = 0 then .running else .halted) ∨
      (t.halt = 0 ∧ ∃ record, t.runState = .faulted record) := by
  obtain ⟨hrun, hhalt, ⟨i, -, hexec⟩ | ⟨op, -, hillegal⟩⟩ := step_cases s t h
  · obtain ⟨u, jump, rfl, -, -, hu, -⟩ | ⟨kind, data, rfl, -, -⟩ | ⟨-, -, rfl⟩ := exec_cases s t i hexec
    · exact .inl (by rw [State.endCycle_runState, State.endCycle_halt, hu, hrun])
    · exact .inr ⟨hhalt, _, rfl⟩
    · exact .inl (by simp [hrun, hhalt])
  · cases hillegal
    exact .inl (by rw [State.endCycle_runState, State.endCycle_halt, State.emit_runState, hrun])

/-- The flags stay legal (10_state R24). -/
theorem Changes.flagsLegal (hc : Changes i s t) (h : s.FlagsLegal) : t.FlagsLegal := by
  obtain ⟨heq, hsel, hdbz, hhalt⟩ := h
  exact ⟨hc.eq.le_one heq, hc.sel.le_one hsel, hc.dbz.le_one hdbz, hc.halt.le_one hhalt⟩

/-- Memory stays canonical: a store reaches no address outside it (20_memory R44). -/
theorem Changes.mem_wf (hc : Changes i s t) (h : s.mem.wf) : t.mem.wf := by
  obtain hmem | ⟨data, a, -, ha, hmem⟩ := hc.mem
  · exact hmem ▸ h
  · exact hmem ▸ s.mem.wf_writeWord a _ (effectiveAddress_lt data a ha) h

/-- There stay no more events than completed cycles (46_debug_extension R124). -/
theorem Changes.events_le_cycles (hc : Changes i s t) (h : s.trace.length ≤ s.cycles) : t.trace.length ≤ t.cycles := by
  obtain ⟨htrace, hcycles⟩ | ⟨e, htrace, hcycles⟩ := hc.trace
  · exact htrace ▸ h.trans hcycles
  · rw [htrace, hcycles, List.length_append]
    exact Nat.succ_le_succ h

/-- Settles O54: what an instruction may change keeps the flags, memory and the trace within the invariant, and the
halt check at the end of the cycle sets the run state by HALT. -/
theorem stepKeepsInvariant : Obligations.StepKeepsInvariant := by
  intro s t ⟨hmem, hflags, _, hevents⟩ h
  obtain ⟨i, hc⟩ := exists_changes_of_step h
  refine ⟨hc.mem_wf hmem, hc.flagsLegal hflags, ?_, hc.events_le_cycles hevents⟩
  obtain hrun | ⟨hhalt, record, hrun⟩ := step_runState_cases h
  · rw [hrun]
    split <;> simp_all
  · simp [hrun, hhalt]

/-- Settles O53: the empty memory is canonical, and the other fields are those of reset. -/
theorem resetHasInvariant : Obligations.ResetHasInvariant :=
  ⟨State.reset_mem_wf, ⟨Nat.zero_le 1, Nat.zero_le 1, Nat.zero_le 1, Nat.zero_le 1⟩,
    by decide, le_rfl⟩

/-- A launch leaves the invariant of the reset state over the memory it loads (70_reset_and_hazards R146). -/
theorem inv_of_launch {image : List Byte} (h : launch image = .next s) : s.Inv := by
  obtain ⟨-, -, -, rfl⟩ := launch_cases s image h
  obtain ⟨-, hflags, hhalted, hevents⟩ := resetHasInvariant
  exact ⟨Memory.wf_loadedMemory _, hflags, hhalted, hevents⟩

/-- Every reached state has the invariant. -/
theorem Reachable.inv (h : Reachable s) : s.Inv := by
  induction h with
  | launched h => exact inv_of_launch h
  | stepped _ hs ih => exact stepKeepsInvariant _ _ ih hs
  | keyOffered v _ ih => exact ⟨ih.memory, ih.flags, ih.halted, ih.events⟩

/-- Settles O55: a Running state with the invariant has HALT = 0, so it is enabled. -/
theorem reachableStatesHaveInvariant : Obligations.ReachableStatesHaveInvariant := by
  intro s h
  refine ⟨h.inv, fun hstop => ?_⟩
  cases hrun : s.runState with
  | halted => exact .inl (by simp [State.ended, hrun])
  | faulted record => exact .inr (by simp [State.unfaulted, hrun])
  | running =>
    have hhalt : s.halt = 0 := by
      by_contra hne
      cases hrun.symm.trans (h.inv.halted.2 hne)
    exact absurd (s.enabled_iff.2 ⟨hrun, hhalt⟩) (by simp [hstop])

end Sys2Proof.Machine
end

section
/-! The cycle: what a step runs, how it can end, and where it leaves PC (40_cycle R82–R95; 60_exceptions R127–R129). -/

namespace Sys2Proof.Machine

open Claims

variable {s t : State} {i : Instr}

/-! ### What a step runs -/

/-- A state that is Running with HALT = 0 runs the decoded instruction (40_cycle R82, R85). -/
theorem step_of_decode_ok (hrun : s.runState = .running) (hhalt : s.halt = 0)
    (hi : decode s.fetchOpcode s.fetchData = .ok i) : step s = exec i s := by
  simp [step, s.enabled_iff.2 ⟨hrun, hhalt⟩, hi]

/-- It runs the illegal-opcode handler when the opcode is in no row (40_cycle R93). -/
theorem step_of_decode_error {op : Word} (hrun : s.runState = .running) (hhalt : s.halt = 0)
    (hop : decode s.fetchOpcode s.fetchData = .error (.illegalOpcode op)) : step s = execIllegal op s := by
  simp [step, s.enabled_iff.2 ⟨hrun, hhalt⟩, hop]

/-- Settles O9: an enabled state runs the decoded instruction. -/
theorem stepRunsDecodedInstruction : Obligations.StepRunsDecodedInstruction :=
  fun _ _ => step_of_decode_ok

/-- Settles O10: the handler emits the event and ends a one-word cycle. -/
theorem illegalOpcodeIsLoggedNop : Obligations.IllegalOpcodeIsLoggedNop := by
  rintro s op hrun hhalt rfl hop
  refine ⟨_, step_of_decode_error hrun hhalt hop, rfl, rfl, rfl, ?_,
    ⟨rfl, rfl⟩, ⟨rfl, rfl, rfl, rfl⟩, fun _ => rfl, rfl⟩
  simp [hhalt, hrun]

/-- Any other state answers with the reason it stopped (40_cycle R82). -/
theorem step_of_stopped (h : ¬ (s.runState = .running ∧ s.halt = 0)) : step s = .fault s.stopReason :=
  step_of_not_enabled s (Bool.eq_false_iff.2 (mt s.enabled_iff.1 h))

/-- Settles O14: none of the three states is enabled, and each has its stop reason. -/
theorem noCycleOnceHaltedOrFaulted : Obligations.NoCycleOnceHaltedOrFaulted := by
  intro s
  refine ⟨fun h => ?_, fun h hhalt => ?_, fun record h => ?_⟩
  · rw [step_of_stopped (by simp [h]), State.stopReason, h]
  · rw [step_of_stopped fun ⟨_, hzero⟩ => hhalt hzero, State.stopReason, h]
  · rw [step_of_stopped (by simp [h]), State.stopReason, h]

/-- Settles O15: SEL = 0 and SEL = 1 are the two cases of the roles. -/
theorem selectorNamesActiveRegister : Obligations.SelectorNamesActiveRegister :=
  fun s => ⟨fun h => by simp [State.act, State.inact, h], fun h => by simp [State.act, State.inact, h], s.inact_ne_act⟩

/-! ### How an instruction ends -/

/-- Every instruction answers a next state. -/
theorem exec_total (i : Instr) (s : State) : ∃ t, exec i s = .next t := by
  cases i <;> exact ⟨_, rfl⟩

/-- Only the run state tells whether a model fault has been raised. -/
theorem State.unfaulted_congr (h : t.runState = s.runState) : t.unfaulted = s.unfaulted := by
  simp [State.unfaulted, h]

/-- The end of a completed cycle raises no model fault. -/
theorem unfaulted_endCycle (u : State) (len : Nat) (jump : Option Word) (h : u.unfaulted = true) :
    (u.endCycle len jump).unfaulted = true := by
  by_cases hhalt : u.halt = 0
  · exact (State.unfaulted_congr (if_pos hhalt)).trans h
  · rw [State.unfaulted, State.endCycle_runState, if_neg hhalt]

/-- From an unfaulted state an instruction ends unfaulted, or raises a model fault (60_exceptions R127). -/
theorem unfaulted_or_faults (hs : s.unfaulted = true) (h : exec i s = .next t) : t.unfaulted = true ∨ Faults i s t := by
  obtain ⟨u, jump, rfl, -, -, hu, -⟩ | hfault | ⟨-, -, rfl⟩ := exec_cases s t i h
  · exact .inl (unfaulted_endCycle u _ _ ((State.unfaulted_congr hu).trans hs))
  · exact .inr hfault
  · exact .inl hs

/-- A state with a fault record is not unfaulted. -/
theorem not_unfaulted_of_record {record : FaultRecord} (h : t.runState = .faulted record) : t.unfaulted ≠ true := by
  simp [State.unfaulted, h]

/-- Settles O41: an unfaulted state becomes Faulted only by raising a model fault, which writes the record. -/
theorem modelFaultChangesNothingElse : Obligations.ModelFaultChangesNothingElse := by
  intro s t i record hs h hrecord
  obtain ⟨kind, data, rfl, hdata, hwf⟩ := (unfaulted_or_faults hs h).resolve_left (not_unfaulted_of_record hrecord)
  cases hrecord
  exact ⟨rfl, rfl, rfl, hdata, hwf⟩

/-- The kind of model fault an instruction can raise (60_exceptions R128). -/
def RaisesKind (i : Instr) (kind : FaultKind) : Prop :=
  match i with
  | .lfm _ | .wtm _ => kind = .addressUnderflow
  | .sra _ => kind = .selectorRange
  | .dbgLgc _ => kind = .alphabetRange
  | _ => False

/-- An operand R152 forbids raises a model fault of the instruction's kind (60_exceptions R128). -/
theorem exec_of_not_wellFormed (h : i.wellFormed = false) (s : State) :
    ∃ kind data, exec i s = .next (s.raiseModelFault kind i.opcode data) ∧ RaisesKind i kind := by
  cases i with
  | lfm data => exact ⟨_, _, exec_lfm_of_none s data ((effectiveAddress_eq_none data).2 h), rfl⟩
  | wtm data => exact ⟨_, _, exec_wtm_of_none s data ((effectiveAddress_eq_none data).2 h), rfl⟩
  | sra data => exact ⟨_, _, exec_sra_of_none s data ((selectorOperand_eq_none data).2 h), rfl⟩
  | dbgLgc data => exact ⟨_, _, exec_dbgLgc_of_none s data ((alphabetOperand_eq_none data).2 h), rfl⟩
  | _ => cases h

/-- Settles O42: a forbidden operand raises its kind of model fault, and nothing else raises one. -/
theorem modelFaultExactlyOnForbiddenOperand : Obligations.ModelFaultExactlyOnForbiddenOperand := by
  intro s i hs
  cases hwf : i.wellFormed with
  | false =>
    obtain ⟨kind, data, h, hkind⟩ := exec_of_not_wellFormed hwf s
    refine ⟨_, h, by simp [State.unfaulted], fun record hrecord => ?_⟩
    cases hrecord
    exact hkind
  | true =>
    obtain ⟨t, h⟩ := exec_total i s
    have ht : t.unfaulted = true := (unfaulted_or_faults hs h).resolve_right fun ⟨_, _, _, _, hno⟩ => by
      cases hwf.symm.trans hno
    exact ⟨t, h, by simp [ht], fun record hrecord => absurd ht (not_unfaulted_of_record hrecord)⟩

/-- Settles O13: a decoded instruction completes, faults on a forbidden operand or is a holding DGB_INP; an illegal
opcode completes. -/
theorem enabledCycleCompletesFaultsOrHolds : Obligations.EnabledCycleCompletesFaultsOrHolds := by
  intro s hrun hhalt
  cases hd : decode s.fetchOpcode s.fetchData with
  | error e =>
    obtain ⟨op⟩ := e
    exact ⟨_, step_of_decode_error hrun hhalt hd, .inl rfl⟩
  | ok i =>
    obtain ⟨t, h⟩ := exec_total i s
    refine ⟨t, (step_of_decode_ok hrun hhalt hd).trans h, ?_⟩
    obtain ⟨u, jump, rfl, -, hu, -⟩ | ⟨kind, data, rfl, -, hwf⟩ | ⟨rfl, hkey, rfl⟩ := exec_cases s t i h
    · exact .inl (by simp [hu])
    · exact .inr (.inl ⟨by simp [State.keepsDuties, hd, hwf], _, rfl⟩)
    · exact .inr (.inr ⟨(words_of_decode hd).1.symm, hkey, rfl⟩)

/-! ### Where an instruction leaves PC -/

/-- An instruction that is no jump advances PC by its length in a completed cycle, or leaves PC and the count alone
(10_state R18; 40_cycle R87). -/
theorem pc_of_not_isJump (hi : ¬ IsJump i) (h : exec i s = .next t) :
    (t.pc = advance s.pc i.length ∧ t.cycles = s.cycles + 1) ∨ (t.pc = s.pc ∧ t.cycles = s.cycles) := by
  obtain ⟨u, jump, rfl, hpc, hcycles, -, hjump⟩ | ⟨kind, data, rfl, -, -⟩ | ⟨-, -, rfl⟩ := exec_cases s t i h
  · obtain rfl | ⟨target, -, htarget⟩ := hjump
    · exact .inl (by simp [hpc, hcycles])
    · exact absurd ⟨target, htarget⟩ hi
  · exact .inr ⟨rfl, rfl⟩
  · exact .inr ⟨rfl, rfl⟩

/-- After a completed cycle of an instruction that is no jump PC has advanced. -/
theorem pc_of_completed (hi : ¬ IsJump i) (h : exec i s = .next t) (hc : t.cycles = s.cycles + 1) :
    t.pc = advance s.pc i.length := by
  obtain ⟨hpc, -⟩ | ⟨-, hsame⟩ := pc_of_not_isJump hi h
  · exact hpc
  · omega

/-- Settles O46: an instruction that is no jump advances PC, or its cycle does not complete. -/
theorem onlyJumpsRedirectPc : Obligations.OnlyJumpsRedirectPc :=
  fun _ _ _ h hi => (pc_of_not_isJump hi h).imp_left And.left

/-- Settles O12: PC has advanced, and the advance is computed on integers. -/
theorem advancePastTopWrapsToZero : Obligations.AdvancePastTopWrapsToZero := by
  intro s t i hi h hc
  rw [pc_of_completed hi h hc, advance_toNat]

end Sys2Proof.Machine
end

section
/-! The fetch and the load after a store, and the canonical form (20_memory R40, R50, R54; 30_encoding R75). -/

namespace Sys2Proof.Machine

open Claims

variable {s t u : State} {i : Instr} {data : Word}

/-! ### A store is seen by the next fetch and by a load -/

/-- A data word other than 0 names the address one below it (41_transfer R96, R97). -/
theorem effectiveAddress_of_ne_zero (h : data ≠ 0) : effectiveAddress data = some (data.toNat - 1) :=
  if_neg h

/-- The word a WTM stores is read back at its address (41_transfer R97). -/
theorem exec_wtm_readWord_same {a : Nat} (hwf : s.mem.wf) (ha : effectiveAddress data = some a)
    (h : exec (.wtm data) s = .next t) : t.mem.readWord a = s.activeValue := by
  cases h.symm.trans (exec_wtm_of_some s data a ha)
  exact s.mem.readWord_writeWord_same a _ (effectiveAddress_lt data a ha) hwf

/-- Settles O50: the WTM completes with PC at the word it stored to. -/
theorem storeIsSeenByNextFetch : Obligations.StoreIsSeenByNextFetch := by
  intro s t hwf hpc hrun hhalt hop hdata h
  have hdecode : decode s.fetchOpcode s.fetchData = .ok (.wtm s.fetchData) :=
    hop ▸ decode_words (.wtm s.fetchData) 0
  rw [step_of_decode_ok hrun hhalt hdecode] at h
  have ha : effectiveAddress s.fetchData = some (s.pc.toNat + 2) := (effectiveAddress_eq_some _ _).2 hdata
  have htpc : t.pc.toNat = s.pc.toNat + 2 := by
    cases h.symm.trans (exec_wtm_of_some s _ _ ha)
    exact (advance_toNat s.pc 2).trans (if_neg (by omega))
  refine ⟨?_, htpc⟩
  rw [State.fetchOpcode, htpc, exec_wtm_readWord_same hwf ha h]

/-- Settles O51: the load reads the word the store left at their address. -/
theorem loadReturnsWhatWasStored : Obligations.LoadReturnsWhatWasStored := by
  intro s t t' u data hwf hdata hstore hmem hload
  have ha := effectiveAddress_of_ne_zero hdata
  cases hload.symm.trans (exec_lfm_of_some t' data _ ha)
  rw [State.getReg_endCycle, State.getReg_act_setActive, hmem, exec_wtm_readWord_same hwf ha hstore]

/-! ### The canonical form is unique -/

/-- Memories with the same word have its two bytes in common (20_memory R40). -/
theorem Memory.readByte_eq_of_readWord_eq {m n : Memory} {a : Nat} (h : m.readWord a = n.readWord a) :
    m.readByte (2 * a) = n.readByte (2 * a) ∧ m.readByte (2 * a + 1) = n.readByte (2 * a + 1) := by
  have hhigh := congrArg Word.highByte h
  have hlow := congrArg Word.lowByte h
  simp only [Memory.readWord] at hhigh hlow
  rw [Word.highByte_ofBytes, Word.highByte_ofBytes] at hhigh
  rw [Word.lowByte_ofBytes, Word.lowByte_ofBytes] at hlow
  exact ⟨hhigh, hlow⟩

/-- The cells of a canonical memory are the bytes that do not read as unlisted ones. -/
theorem Memory.mem_iff_readByte {m : Memory} (h : m.wf) (c : Host.Cell) :
    c ∈ m ↔ m.readByte c.1 = c.2 ∧ c.2 ≠ Memory.unlisted := by
  obtain ⟨a, b⟩ := c
  induction m with
  | nil => simp [eq_comm]
  | cons d m ih =>
    obtain ⟨k, v⟩ := d
    obtain ⟨hk, hv, -, hm⟩ := (Memory.wf_cons m k v).1 h
    rw [List.mem_cons, ih hm, Memory.readByte_cons, Prod.mk.injEq]
    split
    · next hka =>
      have hnone : Memory.readByte m a = Memory.unlisted :=
        Memory.readByte_of_forall_ne m a fun c hc => by have := hk c hc; omega
      subst hka
      simp only [hnone, true_and]
      exact ⟨by rintro (rfl | ⟨rfl, hne⟩) <;> tauto, fun ⟨hb, _⟩ => .inl hb.symm⟩
    · next hka => exact ⟨fun h => h.resolve_left fun ⟨hak, _⟩ => hka hak.symm, .inr⟩

/-- The cells of a canonical memory are inside the words a second one agrees with it on, so they are that one's cells. -/
theorem Memory.subset_of_readWord_eq {m n : Memory} (hm : m.wf) (hn : n.wf)
    (h : ∀ a < 65536, m.readWord a = n.readWord a) {c : Host.Cell} (hc : c ∈ m) : c ∈ n := by
  obtain ⟨hbyte, hne⟩ := (Memory.mem_iff_readByte hm c).1 hc
  have hlt : c.1 < 131072 := (hm.2 c hc).2
  obtain ⟨heven, hodd⟩ := Memory.readByte_eq_of_readWord_eq (h (c.1 / 2) (by omega))
  have hsame : m.readByte c.1 = n.readByte c.1 := by
    obtain heq | heq : c.1 = 2 * (c.1 / 2) ∨ c.1 = 2 * (c.1 / 2) + 1 := by omega
    · rwa [← heq] at heven
    · rwa [← heq] at hodd
  exact (Memory.mem_iff_readByte hn c).2 ⟨hsame ▸ hbyte, hne⟩

/-- A canonical memory lists no cell twice. -/
theorem Memory.nodup_of_wf {m : Memory} (h : m.wf) : m.Nodup :=
  h.1.imp fun hlt heq => absurd (heq ▸ hlt) (lt_irrefl _)

/-- Settles O52: the two memories have the same cells, and both list them in rising order. -/
theorem canonicalMemoryIsUnique : Obligations.CanonicalMemoryIsUnique := by
  intro m n hm hn h
  refine List.Perm.eq_of_pairwise (le := fun c d => c.1 < d.1) (fun c d _ _ h1 h2 => absurd h1 h2.asymm) hm.1 hn.1 ?_
  exact (List.perm_ext_iff_of_nodup (Memory.nodup_of_wf hm) (Memory.nodup_of_wf hn)).2 fun c =>
    ⟨Memory.subset_of_readWord_eq hm hn h, Memory.subset_of_readWord_eq hn hm fun a ha => (h a ha).symm⟩

/-! ### The word after a one-word instruction -/

/-- A one-word instruction is no jump (30_encoding R59). -/
theorem not_isJump_of_length (h : i.length = 1) : ¬ IsJump i := by
  rintro ⟨data, rfl | rfl | rfl⟩ <;> cases h

/-- A one-word instruction writes no memory (20_memory R39). -/
theorem mem_of_length (hi : i.length = 1) (h : exec i s = .next t) : t.mem = s.mem := by
  obtain hmem | ⟨data, a, rfl, -⟩ := (exec_changes h).mem
  · exact hmem
  · cases hi

/-- After a completed cycle of a one-word instruction the next opcode is the word that followed it (30_encoding R75). -/
theorem fetchOpcode_of_completed (hpc : s.pc.toNat < 65535) (hi : i.length = 1) (h : exec i s = .next t)
    (hc : t.cycles = s.cycles + 1) : t.fetchOpcode = s.fetchData := by
  have htpc : t.pc.toNat = s.pc.toNat + 1 := by
    rw [pc_of_completed (not_isJump_of_length hi) h hc, advance_toNat, hi, if_neg (by omega)]
  rw [State.fetchData_of_ne_last hpc.ne, State.fetchOpcode, htpc, mem_of_length hi h]

/-- SXY on numbers: X − Y, plus 2^16 when X is below Y (42_alu_arith_compare R102). -/
theorem subResult_toNat_eq_ite (a b : Word) :
    (subResult a b).toNat = if a.toNat < b.toNat then a.toNat + 65536 - b.toNat else a.toNat - b.toNat := by
  have ha := a.isLt
  have hb := b.isLt
  rw [subResult_toNat]
  split <;> omega

/-- Settles O56: the NOP leaves the second word as the next opcode, and that word is SXY whatever follows it. -/
theorem wordAfterOneWordInstructionIsNextOpcode : Obligations.WordAfterOneWordInstructionIsNextOpcode := by
  refine ⟨fun s t i hpc hd hi h hc => ?_, fun s hrun hhalt hpc hop hdata => ?_⟩
  · obtain ⟨hrun, hhalt, -⟩ := step_cases s t h
    exact fetchOpcode_of_completed hpc hi ((step_of_decode_ok hrun hhalt hd).symm.trans h) hc
  · have hnop : exec .nop s = .next (s.endCycle 1 none) := rfl
    have hnext : (s.endCycle 1 none).fetchOpcode = 0x0005 :=
      (fetchOpcode_of_completed hpc rfl hnop rfl).trans hdata
    have hrun' : (s.endCycle 1 none).runState = .running := by simp [hhalt, hrun]
    have hstep : step s = .next (s.endCycle 1 none) :=
      (step_of_decode_ok hrun hhalt (by rw [hop]; exact decode_words .nop _)).trans hnop
    have hstep' : step (s.endCycle 1 none) = exec .sxy (s.endCycle 1 none) :=
      step_of_decode_ok hrun' hhalt (by rw [hnext]; exact decode_words .sxy _)
    obtain ⟨hact, hinact⟩ := (s.endCycle 1 none).writesActive_finishAlu (subResult s.x s.y)
    obtain ⟨⟨hpc2, hrun2, hcycles2⟩, hflags, hmem, hports⟩ :=
      (s.endCycle 1 none).finishAlu_frame (subResult s.x s.y)
    exact ⟨_, _, hstep, hstep', ⟨(congrArg BitVec.toNat hact).trans (subResult_toNat_eq_ite _ _), hinact⟩,
      hpc2, hcycles2, (hrun2 hhalt).trans hrun', hflags, hmem, hports⟩

end Sys2Proof.Machine
end

section
/-! The launch of an image (30_encoding R69, R70; 70_reset_and_hazards R145–R148). -/

namespace Sys2Proof.Machine

/-- Two bytes stand for each word (30_encoding R70). -/
@[simp] theorem length_wordsToBytes (ws : List Word) : (wordsToBytes ws).length = 2 * ws.length := by
  induction ws with
  | nil => rfl
  | cons w ws ih => simp only [wordsToBytes, List.length_cons, ih]; omega

/-- The words read back from their bytes (30_encoding R70). -/
@[simp] theorem bytesToWords_wordsToBytes (ws : List Word) : bytesToWords (wordsToBytes ws) = ws := by
  induction ws with
  | nil => rfl
  | cons w ws ih => rw [wordsToBytes, bytesToWords, ih, Word.ofBytes_high_low]

/-- A launch of the magic and an even number of bytes loads them (70_reset_and_hazards R146, R148). -/
theorem launch_of_magic {image : List Byte} (hmagic : image.take romMagic.length = romMagic)
    (heven : (image.drop romMagic.length).length % 2 = 0) :
    launch image =
      .next { State.reset with mem := loadedMemory (bytesToWords (image.drop romMagic.length)) } := by
  have hlen : romMagic.length ≤ image.length := by
    have hmin := congrArg List.length hmagic
    rw [List.length_take] at hmin
    exact min_eq_left_iff.1 hmin
  unfold launch
  rw [if_neg (Nat.not_lt.2 hlen), if_neg (not_not.2 hmagic), if_neg (not_not.2 heven)]

/-- The launch of the image of a program loads the program and the footer (30_encoding R69). -/
theorem launch_romImage (program : List Word) :
    launch (romImage program) = .next { State.reset with mem := loadedMemory (program ++ romFooter) } := by
  have hdrop : (romImage program).drop romMagic.length = wordsToBytes (program ++ romFooter) := List.drop_left
  have htake : (romImage program).take romMagic.length = romMagic := List.take_left
  rw [launch_of_magic htake (by simp [hdrop]), hdrop, bytesToWords_wordsToBytes]

/-- The first 4096 words are loaded from address 0, and every other word is 0 (70_reset_and_hazards R145, R146). -/
theorem readWord_loadedMemory (words : List Word) (a : Nat) :
    (loadedMemory words).readWord a = if a < 4096 then (words[a]?).getD 0 else 0 := by
  have hlen : 0 + (words.take Config.romLoadLimit).length ≤ Config.memWords := by
    simp [Config.romLoadLimit, Config.memWords]
  rw [loadedMemory, Memory.readWord_writeWords [] _ 0 hlen Memory.wf_nil, if_pos (Nat.zero_le a), Memory.readWord_nil,
    Nat.sub_zero, Config.romLoadLimit, List.getElem?_take]
  split <;> rfl

/-- Settles O3: the launch loads the program and its footer. -/
theorem launchLoadsProgramAndFooter : Obligations.LaunchLoadsProgramAndFooter := by
  intro program
  refine ⟨_, launch_romImage program, rfl, fun a ha => ?_, fun a ha => ?_⟩
  · exact (readWord_loadedMemory _ a).trans (if_pos ha)
  · exact (readWord_loadedMemory _ a).trans (if_neg (Nat.not_lt.2 ha))

/-- A launch answers a state or refuses (70_reset_and_hazards R147). -/
theorem launch_ne_fault (image : List Byte) (f : Fault) : launch image ≠ .fault f := by
  unfold launch
  split_ifs <;> exact nofun

/-- Settles O4: the magic has an even number of bytes, so the image and what follows the magic have the same parity. -/
theorem launchRefusesExactlyMalformedImages : Obligations.LaunchRefusesExactlyMalformedImages := by
  intro image
  refine ⟨⟨fun ⟨s, h⟩ => ?_, fun ⟨hmagic, heven⟩ => ?_⟩, fun hshort => if_pos hshort, launch_ne_fault image⟩
  · obtain ⟨hlen, hmagic, heven, -⟩ := launch_cases s image h
    refine ⟨hmagic, ?_⟩
    rw [List.length_drop] at heven
    have : romMagic.length = 10 := rfl
    omega
  · refine ⟨_, launch_of_magic hmagic ?_⟩
    rw [List.length_drop]
    have : romMagic.length = 10 := rfl
    omega

end Sys2Proof.Machine
end

section
/-! Each instruction's encoding, result, completion and frame (40_cycle R92; 41_transfer; 42_alu_arith_compare;
43_control_transfer; 44_flags_halt; 45_shift_logic; 46_debug_extension). -/

namespace Sys2Proof.Machine

open Claims

variable {s t u : State} {data : Word}

/-! ### How a cycle that writes no PC ends -/

/-- A cycle completes whose handler left PC, the count and the run state alone and set no HALT (40_cycle R86–R89). -/
theorem State.goesOn_endCycle (len : Nat) (hpc : u.pc = s.pc) (hrun : u.runState = s.runState)
    (hcycles : u.cycles = s.cycles) (hhalt : s.halt = 0 → u.halt = 0) : GoesOn s (u.endCycle len none) len :=
  ⟨congrArg (advance · len) hpc, fun h => (if_pos (hhalt h)).trans hrun, congrArg Nat.succ hcycles⟩

/-- An instruction that only writes v to the active register. -/
theorem frame_of_eq_setActive_endCycle {v : Word} {len : Nat} (h : t = (s.setActive v).endCycle len none) :
    WritesActive s t v ∧ GoesOn s t len ∧ SameFlags s t ∧ SameMemory s t ∧ SamePorts s t := by
  subst h
  exact ⟨by simp [WritesActive], State.goesOn_endCycle len (by simp) (by simp) (by simp) (by simp),
    by simp [SameFlags], by simp [SameMemory], by simp [SamePorts]⟩

/-- The value written to the active register, as a number. -/
theorem writesActiveNat_of_toNat {v : Word} {n : Nat} (h : WritesActive s t v) (hv : v.toNat = n) :
    WritesActiveNat s t n :=
  ⟨h.1 ▸ hv, h.2⟩

/-- An ALU instruction whose result is n as a number. -/
theorem State.finishAlu_writesActiveNat (s : State) {v : Word} {n : Nat} (hv : v.toNat = n) :
    WritesActiveNat s (s.finishAlu v) n ∧ GoesOn s (s.finishAlu v) 1 ∧ SameFlags s (s.finishAlu v) ∧
      SameMemory s (s.finishAlu v) ∧ SamePorts s (s.finishAlu v) :=
  ⟨writesActiveNat_of_toNat (s.writesActive_finishAlu v) hv, s.finishAlu_frame v⟩

/-- The encoding of a one-word instruction (30_encoding R59). -/
theorem encodedW1 {i : Instr} (hd : i.dataWord = none) : EncodedW1 i.opcode i :=
  encodedW1_opcode (words_statement i) hd

/-- The encoding of a two-word instruction (30_encoding R60). -/
theorem encodedW2 {code : Word} {f : Word → Instr}
    (hf : ∀ data, (f data).opcode = code ∧ (f data).dataWord = some data) :
    EncodedW2 code f :=
  encodedW2_of_opcode_eq (fun data => words_statement (f data)) hf

/-! ### NOP and the transfers -/

/-- Settles O16: the end of the cycle is all of NOP. -/
theorem nopChangesOnlyPc : Obligations.NopChangesOnlyPc :=
  ⟨encodedW1 rfl, fun s => ⟨_, rfl, s.goesOn_endCycle 1 rfl rfl rfl id, ⟨rfl, rfl⟩, ⟨rfl, rfl, rfl, rfl⟩,
    fun _ => rfl, rfl, rfl⟩⟩

/-- Settles O17: data = 0 names no address, and any other data the one below it. -/
theorem lfmLoadsWordBelowData : Obligations.LfmLoadsWordBelowData := by
  refine ⟨encodedW2 fun _ => ⟨rfl, rfl⟩, fun s data => ?_⟩
  by_cases hdata : data = 0
  · subst hdata
    exact ⟨_, exec_lfm_of_none s 0 rfl, fun _ => rfl, fun h => absurd rfl h⟩
  · exact ⟨_, exec_lfm_of_some s data _ (effectiveAddress_of_ne_zero hdata), fun h => absurd h hdata,
      fun _ => frame_of_eq_setActive_endCycle rfl⟩

/-- Settles O18: data = 0 names no address, and any other data the one below it, where the store writes one word. -/
theorem wtmStoresActiveRegister : Obligations.WtmStoresActiveRegister := by
  refine ⟨encodedW2 fun _ => ⟨rfl, rfl⟩, fun s data => ?_⟩
  by_cases hdata : data = 0
  · subst hdata
    exact ⟨_, exec_wtm_of_none s 0 rfl, fun _ => rfl, fun h => absurd rfl h, nofun⟩
  · have ha := effectiveAddress_of_ne_zero hdata
    have hexec := exec_wtm_of_some s data _ ha
    refine ⟨_, hexec, fun h => absurd h hdata, fun _ => ?_, fun a ha' => ?_⟩
    · exact ⟨State.goesOn_endCycle 2 rfl rfl rfl id, ⟨rfl, rfl⟩, ⟨rfl, rfl, rfl, rfl⟩, rfl, rfl⟩
    · obtain rfl := Option.some.inj (ha.symm.trans ha')
      exact ⟨rfl, fun hwf => exec_wtm_readWord_same hwf ha hexec, s.mem.readByte_writeWord_ne _ _,
        s.mem.readWord_writeWord_ne _ _⟩

/-- Settles O19: data > 1 selects nothing, and 0 and 1 are the new value of SEL. -/
theorem sraSetsSelector : Obligations.SraSetsSelector := by
  refine ⟨encodedW2 fun _ => ⟨rfl, rfl⟩, fun s data => ?_⟩
  by_cases hdata : data.toNat > 1
  · exact ⟨_, exec_sra_of_none s data (if_pos hdata), fun _ => rfl, fun h => absurd h (Nat.not_le.2 hdata)⟩
  · exact ⟨_, exec_sra_of_some s data data (if_neg hdata), fun h => absurd h hdata, fun _ => ⟨rfl,
      State.goesOn_endCycle 2 rfl rfl rfl id, ⟨rfl, rfl⟩, rfl, rfl, rfl, fun _ => rfl, rfl, rfl⟩⟩

/-- Settles O20: the data word is written to the active register. -/
theorem dwrLoadsImmediate : Obligations.DwrLoadsImmediate :=
  ⟨encodedW2 fun _ => ⟨rfl, rfl⟩, fun _ _ => ⟨_, rfl, frame_of_eq_setActive_endCycle rfl⟩⟩

/-! ### Arithmetic and comparison -/

/-- Settles O21: an ALU result, the sum of X and Y. -/
theorem axyAddsModulo : Obligations.AxyAddsModulo :=
  ⟨encodedW1 rfl, fun s => ⟨_, rfl, s.finishAlu_writesActiveNat (addResult_toNat s.x s.y)⟩⟩

/-- Settles O22: an ALU result, the difference of X and Y. -/
theorem sxySubtractsYFromX : Obligations.SxySubtractsYFromX :=
  ⟨encodedW1 rfl, fun s => ⟨_, rfl, s.finishAlu_writesActiveNat (subResult_toNat_eq_ite s.x s.y)⟩⟩

/-- Settles O23: an ALU result, the product of X and Y. -/
theorem mxyMultipliesModulo : Obligations.MxyMultipliesModulo :=
  ⟨encodedW1 rfl, fun s => ⟨_, rfl, s.finishAlu_writesActiveNat (mulResult_toNat s.x s.y)⟩⟩

/-- Settles O24: an ALU result, the quotient, after DBZ was set or kept; setting DBZ leaves the roles of the registers
alone. -/
theorem dxyDividesOrSetsDivideByZero : Obligations.DxyDividesOrSetsDivideByZero := by
  refine ⟨encodedW1 rfl, fun s => ⟨_, rfl, ?_⟩⟩
  obtain ⟨hresult, hgoes, ⟨heq, hsel, hdbz, hhalt⟩, hmem, hports⟩ :=
    (s.setDbz (divideByZeroFlag s.y s.dbz)).finishAlu_writesActiveNat (divResult_toNat s.x s.y)
  refine ⟨fun hy => ⟨?_, hdbz.trans (if_pos hy)⟩, fun hy => ⟨hresult, hdbz.trans (if_neg hy)⟩,
    hgoes, heq, hsel, hhalt, hmem, hports⟩
  rw [show s.x.toNat / s.y.toNat = 0 by simp [hy]] at hresult
  exact hresult

/-- Settles O25: EQ is the flag word of X = Y. -/
theorem equTestsEquality : Obligations.EquTestsEquality := by
  refine ⟨encodedW1 rfl, fun s => ⟨_, rfl, fun h => ?_, fun h => ?_, State.goesOn_endCycle 1 rfl rfl rfl id,
    ⟨rfl, rfl⟩, rfl, rfl, rfl, fun _ => rfl, rfl, rfl⟩⟩
  · simp [equalFlag, flagWord, h]
  · simp [equalFlag, flagWord, h]

/-- Settles O26: EQ is the flag word of X < Y. -/
theorem leqTestsStrictlyLess : Obligations.LeqTestsStrictlyLess := by
  refine ⟨encodedW1 rfl, fun s => ⟨_, rfl, fun h => ?_, fun h => ?_, State.goesOn_endCycle 1 rfl rfl rfl id,
    ⟨rfl, rfl⟩, rfl, rfl, rfl, fun _ => rfl, rfl, rfl⟩⟩
  · simp [lessFlag, flagWord, h]
  · simp [lessFlag, flagWord, Nat.not_lt.2 h]

/-! ### The jumps -/

/-- Where a taken jump leaves PC, under both settings of PC_CHANGE_DETECT (40_cycle R86). -/
theorem nextPc_some_eq_jumpTarget (s : State) (data : Word) : nextPc s.pc 2 (some data) = jumpTarget s data := by
  unfold jumpTarget
  by_cases h : data = s.pc
  · rw [h, nextPc_some_self]
    simp
  · rw [nextPc_some_of_ne _ _ _ h, if_neg fun hself => h hself.1]

/-- A jump handler sets PC by its condition and changes nothing else of the cycle's end. -/
theorem frame_of_eq_endCycle_jump {taken : Bool} {P : Prop} [Decidable P] (htaken : taken = true ↔ P)
    (h : t = s.endCycle 2 (if taken then some data else none)) :
    t.pc = (if P then jumpTarget s data else advance s.pc 2) ∧ (s.halt = 0 → t.runState = s.runState) ∧
      t.cycles = s.cycles + 1 ∧ SameRegisters s t ∧ SameFlags s t ∧ SameMemory s t ∧ SamePorts s t := by
  subst h
  refine ⟨?_, fun hhalt => if_pos hhalt, rfl, ⟨rfl, rfl⟩, ⟨rfl, rfl, rfl, rfl⟩, fun _ => rfl, rfl, rfl⟩
  rw [State.endCycle_pc, ← nextPc_some_eq_jumpTarget]
  by_cases hP : P
  · rw [if_pos hP, htaken.2 hP, if_pos rfl]
  · rw [if_neg hP, if_neg (mt htaken.1 hP), nextPc_none]

/-- Settles O27: the condition of JPZ is its polarity's. -/
theorem jpzJumpsOnItsPolarity : Obligations.JpzJumpsOnItsPolarity :=
  ⟨encodedW2 fun _ => ⟨rfl, rfl⟩, fun s _ => ⟨_, rfl, frame_of_eq_endCycle_jump (jpzTaken_iff s) rfl⟩⟩

/-- Settles O28: the condition of JNZ is its polarity's. -/
theorem jnzJumpsOnItsPolarity : Obligations.JnzJumpsOnItsPolarity :=
  ⟨encodedW2 fun _ => ⟨rfl, rfl⟩, fun s _ => ⟨_, rfl, frame_of_eq_endCycle_jump (jnzTaken_iff s) rfl⟩⟩

/-- Settles O29: JMP is always taken. -/
theorem jmpJumpsAlways : Obligations.JmpJumpsAlways :=
  ⟨encodedW2 fun _ => ⟨rfl, rfl⟩, fun _ _ =>
    ⟨_, rfl, frame_of_eq_endCycle_jump (taken := true) (P := True) (iff_of_true rfl trivial) rfl⟩⟩

/-- JNZ's condition is the complement of JPZ's (43_control_transfer R109). -/
theorem jnzTaken_iff_not_jpzTaken (s : State) : jnzTaken s = true ↔ ¬ jpzTaken s = true := by
  rw [jnzTaken_iff, jpzTaken_iff]
  tauto

/-- A jump to an address other than its own and the next one ends there exactly when it is taken (40_cycle R86). -/
theorem nextPc_ite_eq_target_iff (taken : Bool) (hself : data ≠ s.pc) (hnext : data ≠ advance s.pc 2) :
    nextPc s.pc 2 (if taken then some data else none) = data ↔ taken = true := by
  cases taken with
  | true => simp [nextPc_some_of_ne _ _ _ hself]
  | false => simp [hnext.symm]

/-- Settles O30: each ends at the target exactly when it is taken, and their conditions are complementary. -/
theorem exactlyOneOfJpzAndJnzIsTaken : Obligations.ExactlyOneOfJpzAndJnzIsTaken := by
  intro s t u data hself hnext ht hu
  cases ht
  cases hu
  rw [State.endCycle_pc, State.endCycle_pc, ne_eq, nextPc_ite_eq_target_iff _ hself hnext,
    nextPc_ite_eq_target_iff _ hself hnext, jnzTaken_iff_not_jpzTaken, not_not]

/-! ### CLR, HLT and the shifts -/

/-- Settles O31: all four flags are cleared, HALT among them, so the run goes on. -/
theorem clrClearsAllFlags : Obligations.ClrClearsAllFlags :=
  ⟨encodedW1 rfl, fun _ => ⟨_, rfl, rfl, rfl, rfl, rfl, State.goesOn_endCycle 1 rfl rfl rfl fun _ => rfl, ⟨rfl, rfl⟩,
    fun _ => rfl, rfl, rfl⟩⟩

/-- Settles O32: the halt check of HLT's own cycle finds HALT = 1. -/
theorem hltHaltsAfterItsCycle : Obligations.HltHaltsAfterItsCycle :=
  ⟨encodedW1 rfl, fun _ => ⟨_, rfl, rfl, rfl, rfl, rfl, ⟨rfl, rfl⟩, rfl, rfl, rfl, fun _ => rfl, rfl, rfl⟩⟩

/-- The left shift moves each bit up by one and bit 0 is 0 (45_shift_logic R115). -/
theorem shiftLeftResult_eq_shiftLeft (a : Word) : shiftLeftResult a = a <<< 1 := by
  apply BitVec.eq_of_toNat_eq
  rw [shiftLeftResult_toNat, BitVec.toNat_shiftLeft, Nat.shiftLeft_eq, pow_one]

/-- The right shift moves each bit down by one and bit 15 is 0 (45_shift_logic R116). -/
theorem shiftRightResult_eq_shiftRight (a : Word) : shiftRightResult a = a >>> 1 := by
  apply BitVec.eq_of_toNat_eq
  rw [shiftRightResult_toNat, BitVec.toNat_ushiftRight, Nat.shiftRight_eq_div_pow, pow_one]

/-- Settles O33: an ALU result, the active register shifted left. -/
theorem bslShiftsLeftByOne : Obligations.BslShiftsLeftByOne := by
  refine ⟨encodedW1 rfl, fun s => ⟨_, rfl, ?_⟩⟩
  obtain ⟨hnat, hframe⟩ := s.finishAlu_writesActiveNat (shiftLeftResult_toNat s.activeValue)
  have hact := (s.writesActive_finishAlu (shiftLeftResult s.activeValue)).1.trans (shiftLeftResult_eq_shiftLeft _)
  refine ⟨hnat, fun k hk => ?_, ?_, hframe⟩
  · have hlt : k + 1 < 16 := Nat.succ_lt_succ hk
    rw [hact, BitVec.getLsbD_shiftLeft, decide_eq_true hlt, Nat.add_sub_cancel]
    simp [State.activeValue]
  · simp [hact]

/-- Settles O34: an ALU result, the active register shifted right. -/
theorem bsrShiftsRightByOne : Obligations.BsrShiftsRightByOne := by
  refine ⟨encodedW1 rfl, fun s => ⟨_, rfl, ?_⟩⟩
  obtain ⟨hnat, hframe⟩ := s.finishAlu_writesActiveNat (shiftRightResult_toNat s.activeValue)
  have hact := (s.writesActive_finishAlu (shiftRightResult s.activeValue)).1.trans (shiftRightResult_eq_shiftRight _)
  refine ⟨hnat, fun k _ => ?_, ?_, hframe⟩
  · rw [hact]
    simp [State.activeValue, Nat.add_comm]
  · simp [hact]

/-! ### The debug extension -/

/-- Settles O38: an index inside the alphabet is logged, and one outside it is a model fault. -/
theorem dbgLgcLogsCharacter : Obligations.DbgLgcLogsCharacter := by
  refine ⟨encodedW2 fun _ => ⟨rfl, rfl⟩, fun s data => ?_⟩
  by_cases hdata : data.toNat ≥ Config.alphabetSize
  · exact ⟨_, exec_dbgLgc_of_none s data (if_pos hdata), fun _ => rfl, fun h => absurd hdata (Nat.not_le.2 h)⟩
  · exact ⟨_, exec_dbgLgc_of_some s data _ (if_neg hdata), fun h => absurd h hdata, fun _ => ⟨rfl,
      State.goesOn_endCycle 2 rfl rfl rfl id, ⟨rfl, rfl⟩, ⟨rfl, rfl, rfl, rfl⟩, fun _ => rfl, rfl⟩⟩

/-- Settles O39: the dump is memory itself. -/
theorem dgbMemDumpsAllOfMemory : Obligations.DgbMemDumpsAllOfMemory :=
  ⟨encodedW1 rfl, fun s => ⟨_, s.mem, rfl, rfl, rfl, State.goesOn_endCycle 1 rfl rfl rfl id, ⟨rfl, rfl⟩,
    ⟨rfl, rfl, rfl, rfl⟩, fun _ => rfl, rfl⟩⟩

/-- With a key offered DGB_INP takes the oldest one and completes (46_debug_extension R122). -/
theorem dgbInp_reads_key (s : State) {v : Word} {rest : List Word} (hkey : s.keyInput = v :: rest) :
    ∃ t, exec .dgbInp s = .next t ∧ WritesActive s t v ∧ t.trace = s.trace ++ [.keyRead v] ∧ t.keyInput = rest ∧
      GoesOn s t 1 ∧ SameFlags s t ∧ SameMemory s t := by
  have hact : WritesActive s (s.dropKey.setActive v) v := s.dropKey.writesActive_finishAlu v
  exact ⟨_, exec_dgbInp_of_cons s v rest hkey, by simpa [WritesActive] using hact, by simp, by simp [hkey],
    State.goesOn_endCycle 1 (by simp) (by simp) (by simp) (by simp), by simp [SameFlags], by simp [SameMemory]⟩

/-- Settles O40: with no key the same state is answered; a key offered then is the oldest one. -/
theorem dgbInpHoldsThenReadsKey : Obligations.DgbInpHoldsThenReadsKey := by
  refine ⟨encodedW1 rfl, fun s hkey => ⟨exec_dgbInp_of_nil s hkey, fun v => ?_⟩, fun s v rest => dgbInp_reads_key s⟩
  obtain ⟨t, h, ⟨hact, -⟩, -⟩ := dgbInp_reads_key (s.offerKey v) (by rw [State.offerKey_keyInput, hkey]; rfl)
  exact ⟨t, h, hact⟩

end Sys2Proof.Machine
end

section
/-! What no instruction reads: DBZ and the count of cycles (10_state R22, R35). -/

namespace Sys2Proof.Machine

variable {s t u : State} {i : Instr} {d : Word} {n : Nat}

/-- The state with other values in the two fields that no instruction reads: DBZ and the count of cycles. -/
def State.withUnread (d : Word) (n : Nat) (s : State) : State := { s with dbz := d, cycles := n }

/-- Writing the active register commutes with it: SEL and the register are read and written alike. -/
theorem State.setActive_withUnread (s : State) (d : Word) (n : Nat) (v : Word) :
    (s.withUnread d n).setActive v = (s.setActive v).withUnread d n := by
  have hact : (s.withUnread d n).act = s.act := rfl
  unfold State.setActive
  rw [hact]
  cases s.act <;> rfl

/-- Run from s with DBZ d and the count n, instruction i answers t but for those two fields: DBZ is t's if d is that of s,
and the count goes on from n as t's does from that of s. -/
def RunsUnread (i : Instr) (s t : State) (d : Word) (n : Nat) : Prop :=
  ∃ d' n', exec i (s.withUnread d n) = .next (t.withUnread d' n') ∧ (d = s.dbz → d' = t.dbz) ∧
    n' + s.cycles = n + t.cycles

/-- An instruction that completes, its handler reading neither field. -/
theorem RunsUnread.of_completes {len : Nat} {jump : Option Word} {d' : Word} (hu : exec i s = .next (u.endCycle len jump))
    (hu' : exec i (s.withUnread d n) = .next ((u.withUnread d' n).endCycle len jump)) (hcycles : u.cycles = s.cycles)
    (hdbz : d = s.dbz → d' = u.dbz) (h : exec i s = .next t) : RunsUnread i s t d n := by
  cases h.symm.trans hu
  exact ⟨d', n + 1, hu', hdbz, by rw [State.endCycle_cycles, hcycles, Nat.add_right_comm, Nat.add_assoc]⟩

/-- An instruction whose cycle does not complete, whatever the two fields hold. -/
theorem RunsUnread.of_not_counted (hu : exec i s = .next u) (hu' : exec i (s.withUnread d n) = .next (u.withUnread d n))
    (hcycles : u.cycles = s.cycles) (hdbz : u.dbz = s.dbz) (h : exec i s = .next t) : RunsUnread i s t d n := by
  cases h.symm.trans hu
  exact ⟨d, n, hu', fun hd => hd.trans hdbz.symm, by rw [hcycles]⟩

/-- An instruction that writes the active register with a value of neither field. -/
theorem RunsUnread.of_setActive {v : Word} {len : Nat} (hu : exec i s = .next ((s.setActive v).endCycle len none))
    (hu' : exec i (s.withUnread d n) = .next (((s.withUnread d n).setActive v).endCycle len none))
    (h : exec i s = .next t) : RunsUnread i s t d n :=
  .of_completes hu (s.setActive_withUnread d n v ▸ hu') (by simp) (fun hd => by simpa using hd) h

/-- No instruction reads DBZ or the count of cycles. -/
theorem exec_runsUnread (d : Word) (n : Nat) (h : exec i s = .next t) : RunsUnread i s t d n := by
  cases i with
  | lfm data =>
    cases he : effectiveAddress data with
    | none =>
      exact .of_not_counted (exec_lfm_of_none s data he) (exec_lfm_of_none (s.withUnread d n) data he) rfl rfl h
    | some a => exact .of_setActive (exec_lfm_of_some s data a he) (exec_lfm_of_some (s.withUnread d n) data a he) h
  | wtm data =>
    cases he : effectiveAddress data with
    | none =>
      exact .of_not_counted (exec_wtm_of_none s data he) (exec_wtm_of_none (s.withUnread d n) data he) rfl rfl h
    | some a =>
      exact .of_completes (exec_wtm_of_some s data a he) (exec_wtm_of_some (s.withUnread d n) data a he) rfl id h
  | sra data =>
    cases he : selectorOperand data with
    | none =>
      exact .of_not_counted (exec_sra_of_none s data he) (exec_sra_of_none (s.withUnread d n) data he) rfl rfl h
    | some v =>
      exact .of_completes (exec_sra_of_some s data v he) (exec_sra_of_some (s.withUnread d n) data v he) rfl id h
  | dbgLgc data =>
    cases he : alphabetOperand data with
    | none =>
      exact .of_not_counted (exec_dbgLgc_of_none s data he) (exec_dbgLgc_of_none (s.withUnread d n) data he) rfl rfl h
    | some c =>
      exact .of_completes (exec_dbgLgc_of_some s data c he) (exec_dbgLgc_of_some (s.withUnread d n) data c he) rfl id h
  | dgbInp =>
    cases he : s.keyInput with
    | nil =>
      exact .of_not_counted (exec_dgbInp_of_nil s he) (exec_dgbInp_of_nil (s.withUnread d n) he) rfl rfl h
    | cons v rest =>
      have hread := exec_dgbInp_of_cons (s.withUnread d n) v rest he
      have hcomm : (s.withUnread d n).dropKey.setActive v = (s.dropKey.setActive v).withUnread d n :=
        s.dropKey.setActive_withUnread d n v
      rw [hcomm] at hread
      exact .of_completes (d' := d) (exec_dgbInp_of_cons s v rest he) hread (by simp) (fun hd => by simpa using hd) h
  | dxy =>
    have hwrite : exec .dxy (s.withUnread d n) =
        .next ((((s.setDbz (divideByZeroFlag s.y s.dbz)).setActive (divResult s.x s.y)).withUnread
          (divideByZeroFlag s.y d) n).endCycle 1 none) := by
      rw [← State.setActive_withUnread]
      rfl
    exact .of_completes rfl hwrite (by simp) (fun hd => by rw [hd, State.setActive_dbz, State.setDbz_dbz]) h
  | clr => exact .of_completes (d' := 0) rfl rfl rfl (fun _ => rfl) h
  | axy | sxy | mxy | bsl | bsr | and | ora | xor | dwr => exact .of_setActive rfl rfl h
  | nop | equ | leq | hlt | jpz | jnz | jmp | dgbMem => exact .of_completes rfl rfl rfl id h

/-- The step reads them in one place: the draw at PC = 0xFFFF is numbered by the count (log 7). -/
theorem step_withUnread (d : Word) (n : Nat) (hn : s.pc.toNat ≠ 65535 ∨ n = s.cycles) (h : step s = .next t) :
    ∃ d' n', step (s.withUnread d n) = .next (t.withUnread d' n') ∧ (d = s.dbz → d' = t.dbz) ∧
      n' + s.cycles = n + t.cycles := by
  have hdata : (s.withUnread d n).fetchData = s.fetchData := by
    obtain hpc | rfl := hn
    · rw [State.fetchData_of_ne_last hpc]
      exact State.fetchData_of_ne_last hpc
    · rfl
  obtain ⟨hrun, hhalt, ⟨i, hi, hexec⟩ | ⟨op, hop, hillegal⟩⟩ := step_cases s t h
  · obtain ⟨d', n', hexec', hd, hcycles⟩ := exec_runsUnread d n hexec
    exact ⟨d', n', (step_of_decode_ok (s := s.withUnread d n) hrun hhalt (hdata.symm ▸ hi)).trans hexec', hd, hcycles⟩
  · cases hillegal
    exact ⟨d, n + 1, step_of_decode_error (s := s.withUnread d n) hrun hhalt (hdata.symm ▸ hop), id,
      Nat.add_right_comm n 1 s.cycles⟩

/-- Settles O47: with the count unchanged the two states answer with the same count. -/
theorem divideByZeroFlagIsNeverRead : Obligations.DivideByZeroFlagIsNeverRead := by
  intro s t v h
  obtain ⟨d', n', hstep, -, hcycles⟩ := step_withUnread v s.cycles (.inr rfl) h
  obtain rfl : n' = t.cycles := by omega
  exact ⟨_, hstep, rfl⟩

/-- Settles O48: with DBZ unchanged the two states answer with the same DBZ. -/
theorem cycleCountIsNeverRead : Obligations.CycleCountIsNeverRead := by
  intro s t n hpc h
  obtain ⟨d', n', hstep, hdbz, -⟩ := step_withUnread s.dbz n (.inl hpc) h
  obtain rfl := hdbz rfl
  exact ⟨_, hstep, rfl⟩

end Sys2Proof.Machine
end
